-- ==== Sys2Proof/Word.lean ====
section
/-! DEFINITION. The word types of the machine: every register and memory value is an unsigned
bit vector (spec 00_scope.md R6), a byte for the register file, the timers and memory, sixteen bits
for `I`, `pc`, the stack entries and the instruction word. -/

namespace Sys2Proof

/-- An 8-bit unsigned value: a general register, a timer, a memory cell (R10, R18, R21). -/
abbrev Byte := BitVec 8

/-- A 16-bit unsigned value: `I`, `pc`, a stack entry, the instruction word (R13, R14, R16, R22). -/
abbrev Word := BitVec 16

/-- The 4-bit field that names a general register; every value names one (R10, R61). -/
abbrev RegIdx := BitVec 4

/-- The 12-bit address field `nnn` of an instruction (R61). -/
abbrev Addr := BitVec 12

end Sys2Proof
end

