-- ==== Sys2Proof/Syntax.lean ====
section
/-! DEFINITION. The instructions: one constructor for each of the 34 rows of spec/opcode_table.json
(30_encoding.md R66), its arguments the fields the row gives (R61, R62). A group of bits the
dispatcher does not examine and the table gives no field (R68: `w[11:8]` of class 0, `w[3:0]` of
classes 5 and 9) has no argument; the field `y` of `8xy6` and `8xyE`, which the table lists and the
handler ignores, is an argument. -/

namespace Sys2Proof

/-- The instruction set (R66). The pattern beside each constructor is its normative name (R73). -/
inductive Instr where
  /-- `00E0`, CLS (R81). -/
  | cls
  /-- `00EE`, RET (R82). -/
  | ret
  /-- `1nnn`, JP nnn (R83). -/
  | jp (nnn : Addr)
  /-- `2nnn`, CALL nnn (R84). -/
  | call (nnn : Addr)
  /-- `3xkk`, SE Vx, kk (R85). -/
  | seImm (x : RegIdx) (kk : Byte)
  /-- `4xkk`, SNE Vx, kk (R86). -/
  | sneImm (x : RegIdx) (kk : Byte)
  /-- `5xy0`, SE Vx, Vy (R87). -/
  | seReg (x y : RegIdx)
  /-- `6xkk`, LD Vx, kk (R101). -/
  | ldImm (x : RegIdx) (kk : Byte)
  /-- `7xkk`, ADD Vx, kk (R102). -/
  | addImm (x : RegIdx) (kk : Byte)
  /-- `8xy0`, LD Vx, Vy (R103). -/
  | ldReg (x y : RegIdx)
  /-- `8xy1`, OR Vx, Vy (R104). -/
  | orReg (x y : RegIdx)
  /-- `8xy2`, AND Vx, Vy (R105). -/
  | andReg (x y : RegIdx)
  /-- `8xy3`, XOR Vx, Vy (R106). -/
  | xorReg (x y : RegIdx)
  /-- `8xy4`, ADD Vx, Vy (R107). -/
  | addReg (x y : RegIdx)
  /-- `8xy5`, SUB Vx, Vy (R108). -/
  | subReg (x y : RegIdx)
  /-- `8xy6`, SHR Vx (R109); `y` is not used by the handler. -/
  | shr (x y : RegIdx)
  /-- `8xy7`, SUBN Vx, Vy (R110). -/
  | subnReg (x y : RegIdx)
  /-- `8xyE`, SHL Vx (R111); `y` is not used by the handler. -/
  | shl (x y : RegIdx)
  /-- `9xy0`, SNE Vx, Vy (R88). -/
  | sneReg (x y : RegIdx)
  /-- `Annn`, LD I, nnn (R120). -/
  | ldI (nnn : Addr)
  /-- `Bnnn`, JP V0, nnn (R89). -/
  | jpV0 (nnn : Addr)
  /-- `Cxkk`, RND Vx, kk (R150). -/
  | rnd (x : RegIdx) (kk : Byte)
  /-- `Dxyn`, DRW Vx, Vy, n (R140). -/
  | drw (x y : RegIdx) (n : BitVec 4)
  /-- `Ex9E`, SKP Vx (R133). -/
  | skp (x : RegIdx)
  /-- `ExA1`, SKNP Vx (R134). -/
  | sknp (x : RegIdx)
  /-- `Fx07`, LD Vx, DT (R130). -/
  | ldVxDt (x : RegIdx)
  /-- `Fx0A`, LD Vx, K (R136). -/
  | ldVxK (x : RegIdx)
  /-- `Fx15`, LD DT, Vx (R131). -/
  | ldDtVx (x : RegIdx)
  /-- `Fx18`, LD ST, Vx (R132). -/
  | ldStVx (x : RegIdx)
  /-- `Fx1E`, ADD I, Vx (R121). -/
  | addI (x : RegIdx)
  /-- `Fx29`, LD F, Vx (R122). -/
  | ldF (x : RegIdx)
  /-- `Fx33`, LD B, Vx (R123). -/
  | ldB (x : RegIdx)
  /-- `Fx55`, LD [I], Vx (R124). -/
  | storeRegs (x : RegIdx)
  /-- `Fx65`, LD Vx, [I] (R125). -/
  | loadRegs (x : RegIdx)
  deriving DecidableEq, Repr

end Sys2Proof
end

