-- ==== Sys2Proof/WellFormed.lean ====
section
/-! DEFINITION. Which instruction terms are canonical (30_encoding.md R69). The widths of the fields
are in their types, so the one thing left to check is the unused `y` field of the two shifts, which
an assembler emits as zero. The decoder and the step accept every term, canonical or not (R68). -/

namespace Sys2Proof

/-- The term is one an assembler emits: `y = 0` in `8x06` and `8x0E` (R69). -/
def Instr.wellFormed : Instr → Bool
  | .shr _ y => y == 0
  | .shl _ y => y == 0
  | _ => true

end Sys2Proof
end

