-- ==== Sys2Proof/Decode.lean ====
section
/-! DEFINITION. The instruction word's fields, the two-level dispatcher and the opcode map
(30_encoding.md R60 to R71), with the encoder written from the same map. -/

namespace Sys2Proof

/-! ## Fields (R61) -/

/-- `w[15:12]`, the first-level dispatch key. -/
def classOf (w : Word) : BitVec 4 := w.extractLsb' 12 4

/-- `w[11:8]`, a register index. -/
def fieldX (w : Word) : RegIdx := w.extractLsb' 8 4

/-- `w[7:4]`, a register index. -/
def fieldY (w : Word) : RegIdx := w.extractLsb' 4 4

/-- `w[3:0]`, a 4-bit immediate or the second-level key of class 8. -/
def fieldN (w : Word) : BitVec 4 := w.extractLsb' 0 4

/-- `w[7:0]`, an immediate byte or the second-level key of classes 0, E and F. -/
def fieldKK (w : Word) : Byte := w.extractLsb' 0 8

/-- `w[11:0]`, a 12-bit address. -/
def fieldNNN (w : Word) : Addr := w.extractLsb' 0 12

/-! ## The dispatcher (R64, R65) -/

/-- Why a byte sequence is no instruction. Each illegal class of R71 has a name of its own; all of
them raise the same `DecodeError` when executed. -/
inductive DecodeReject where
  /-- Fewer than two bytes: not a whole instruction word (R60). -/
  | truncated
  /-- Class 0 with a bottom byte other than E0, EE (R70, R71). -/
  | noClass0Handler (kk : Byte)
  /-- Class 8 with a bottom nibble 8 to D or F (R71). -/
  | noClass8Handler (n : BitVec 4)
  /-- Class E with a bottom byte other than 9E, A1 (R71). -/
  | noClassEHandler (kk : Byte)
  /-- Class F with a bottom byte that is none of the nine (R71). -/
  | noClassFHandler (kk : Byte)
  deriving DecidableEq, Repr

/-- Second level of class 0, keyed by the bottom byte; `w[11:8]` is not examined (R65, R68). -/
def decodeClass0 (w : Word) : Except DecodeReject Instr :=
  match (fieldKK w).toNat with
  | 0xE0 => .ok .cls
  | 0xEE => .ok .ret
  | _ => .error (.noClass0Handler (fieldKK w))

/-- Second level of class 8, keyed by the bottom nibble (R65). -/
def decodeClass8 (w : Word) : Except DecodeReject Instr :=
  match (fieldN w).toNat with
  | 0x0 => .ok (.ldReg (fieldX w) (fieldY w))
  | 0x1 => .ok (.orReg (fieldX w) (fieldY w))
  | 0x2 => .ok (.andReg (fieldX w) (fieldY w))
  | 0x3 => .ok (.xorReg (fieldX w) (fieldY w))
  | 0x4 => .ok (.addReg (fieldX w) (fieldY w))
  | 0x5 => .ok (.subReg (fieldX w) (fieldY w))
  | 0x6 => .ok (.shr (fieldX w) (fieldY w))
  | 0x7 => .ok (.subnReg (fieldX w) (fieldY w))
  | 0xE => .ok (.shl (fieldX w) (fieldY w))
  | _ => .error (.noClass8Handler (fieldN w))

/-- Second level of class E, keyed by the bottom byte (R65). -/
def decodeClassE (w : Word) : Except DecodeReject Instr :=
  match (fieldKK w).toNat with
  | 0x9E => .ok (.skp (fieldX w))
  | 0xA1 => .ok (.sknp (fieldX w))
  | _ => .error (.noClassEHandler (fieldKK w))

/-- Second level of class F, keyed by the bottom byte (R65). -/
def decodeClassF (w : Word) : Except DecodeReject Instr :=
  match (fieldKK w).toNat with
  | 0x07 => .ok (.ldVxDt (fieldX w))
  | 0x0A => .ok (.ldVxK (fieldX w))
  | 0x15 => .ok (.ldDtVx (fieldX w))
  | 0x18 => .ok (.ldStVx (fieldX w))
  | 0x1E => .ok (.addI (fieldX w))
  | 0x29 => .ok (.ldF (fieldX w))
  | 0x33 => .ok (.ldB (fieldX w))
  | 0x55 => .ok (.storeRegs (fieldX w))
  | 0x65 => .ok (.loadRegs (fieldX w))
  | _ => .error (.noClassFHandler (fieldKK w))

/-- Decode, total on words (R67): the class selects a handler or a second-level table (R64, R65).
The low nibble of classes 5 and 9 is not examined (R68). -/
def decodeWord (w : Word) : Except DecodeReject Instr :=
  match (classOf w).toNat with
  | 0x0 => decodeClass0 w
  | 0x1 => .ok (.jp (fieldNNN w))
  | 0x2 => .ok (.call (fieldNNN w))
  | 0x3 => .ok (.seImm (fieldX w) (fieldKK w))
  | 0x4 => .ok (.sneImm (fieldX w) (fieldKK w))
  | 0x5 => .ok (.seReg (fieldX w) (fieldY w))
  | 0x6 => .ok (.ldImm (fieldX w) (fieldKK w))
  | 0x7 => .ok (.addImm (fieldX w) (fieldKK w))
  | 0x8 => decodeClass8 w
  | 0x9 => .ok (.sneReg (fieldX w) (fieldY w))
  | 0xA => .ok (.ldI (fieldNNN w))
  | 0xB => .ok (.jpV0 (fieldNNN w))
  | 0xC => .ok (.rnd (fieldX w) (fieldKK w))
  | 0xD => .ok (.drw (fieldX w) (fieldY w) (fieldN w))
  | 0xE => decodeClassE w
  | _ => decodeClassF w

/-- The word of two consecutive bytes: the one at the lower address is the high byte (R44, R46). -/
def wordOfBytes (high low : Byte) : Word := BitVec.ofNat 16 (high.toNat * 256 + low.toNat)

/-- The two bytes of a word in the order memory holds them (R46). -/
def bytesOfWord (w : Word) : List Byte := [w.extractLsb' 8 8, w.extractLsb' 0 8]

/-- Decode, total on byte sequences: the instruction of the first two bytes and what follows it
(R60: every instruction is one 16-bit word). -/
def decode : List Byte → Except DecodeReject (Instr × List Byte)
  | high :: low :: rest =>
    match decodeWord (wordOfBytes high low) with
    | .ok i => .ok (i, rest)
    | .error e => .error e
  | _ => .error .truncated

/-- The instruction the decoder reads from a table row's word: bit 0 of `w` is the least significant
bit of the one word every instruction has, the bits from `nbits` up are zero, and the word is laid
out high byte first before it is decoded (R46, R60). -/
def decodeTableWord (nbits w : Nat) : Option Instr :=
  match decode (bytesOfWord (BitVec.ofNat 16 (w % 2 ^ nbits))) with
  | .ok (i, _) => some i
  | .error _ => none

/-! ## The encoder (R61, R62, R66, R69) -/

/-- A word from its four nibbles, most significant first. -/
def packNibbles (c x y n : BitVec 4) : Word :=
  BitVec.ofNat 16 (c.toNat * 4096 + x.toNat * 256 + y.toNat * 16 + n.toNat)

/-- A word of format `XKK`, or of format `X` with its key in the bottom byte (R62). -/
def packXKK (c x : BitVec 4) (kk : Byte) : Word :=
  BitVec.ofNat 16 (c.toNat * 4096 + x.toNat * 256 + kk.toNat)

/-- A word of format `NNN` (R62). -/
def packNNN (c : BitVec 4) (nnn : Addr) : Word :=
  BitVec.ofNat 16 (c.toNat * 4096 + nnn.toNat)

/-- The instruction's word, every bit that the table gives no field and no key zero (R66, R69). -/
def encode : Instr → Word
  | .cls => packXKK 0x0 0 0xE0
  | .ret => packXKK 0x0 0 0xEE
  | .jp nnn => packNNN 0x1 nnn
  | .call nnn => packNNN 0x2 nnn
  | .seImm x kk => packXKK 0x3 x kk
  | .sneImm x kk => packXKK 0x4 x kk
  | .seReg x y => packNibbles 0x5 x y 0
  | .ldImm x kk => packXKK 0x6 x kk
  | .addImm x kk => packXKK 0x7 x kk
  | .ldReg x y => packNibbles 0x8 x y 0x0
  | .orReg x y => packNibbles 0x8 x y 0x1
  | .andReg x y => packNibbles 0x8 x y 0x2
  | .xorReg x y => packNibbles 0x8 x y 0x3
  | .addReg x y => packNibbles 0x8 x y 0x4
  | .subReg x y => packNibbles 0x8 x y 0x5
  | .shr x y => packNibbles 0x8 x y 0x6
  | .subnReg x y => packNibbles 0x8 x y 0x7
  | .shl x y => packNibbles 0x8 x y 0xE
  | .sneReg x y => packNibbles 0x9 x y 0
  | .ldI nnn => packNNN 0xA nnn
  | .jpV0 nnn => packNNN 0xB nnn
  | .rnd x kk => packXKK 0xC x kk
  | .drw x y n => packNibbles 0xD x y n
  | .skp x => packXKK 0xE x 0x9E
  | .sknp x => packXKK 0xE x 0xA1
  | .ldVxDt x => packXKK 0xF x 0x07
  | .ldVxK x => packXKK 0xF x 0x0A
  | .ldDtVx x => packXKK 0xF x 0x15
  | .ldStVx x => packXKK 0xF x 0x18
  | .addI x => packXKK 0xF x 0x1E
  | .ldF x => packXKK 0xF x 0x29
  | .ldB x => packXKK 0xF x 0x33
  | .storeRegs x => packXKK 0xF x 0x55
  | .loadRegs x => packXKK 0xF x 0x65

/-- The bytes of an instruction as memory holds them (R46). -/
def encodeBytes (i : Instr) : List Byte := bytesOfWord (encode i)

/-! ## The opcode map as the table prints it (R66) -/

/-- The `mask` column of the instruction's row (R66). -/
def rowMask : Instr → Word
  | .cls | .ret => 0xF0FF
  | .ldReg .. | .orReg .. | .andReg .. | .xorReg .. | .addReg .. | .subReg .. | .shr ..
  | .subnReg .. | .shl .. => 0xF00F
  | .skp _ | .sknp _ | .ldVxDt _ | .ldVxK _ | .ldDtVx _ | .ldStVx _ | .addI _ | .ldF _ | .ldB _
  | .storeRegs _ | .loadRegs _ => 0xF0FF
  | .jp _ | .call _ | .seImm .. | .sneImm .. | .seReg .. | .ldImm .. | .addImm .. | .sneReg ..
  | .ldI _ | .jpV0 _ | .rnd .. | .drw .. => 0xF000

/-- The `match` column of the instruction's row (R66). -/
def rowMatch : Instr → Word
  | .cls => 0x00E0 | .ret => 0x00EE | .jp _ => 0x1000 | .call _ => 0x2000
  | .seImm .. => 0x3000 | .sneImm .. => 0x4000 | .seReg .. => 0x5000
  | .ldImm .. => 0x6000 | .addImm .. => 0x7000
  | .ldReg .. => 0x8000 | .orReg .. => 0x8001 | .andReg .. => 0x8002 | .xorReg .. => 0x8003
  | .addReg .. => 0x8004 | .subReg .. => 0x8005 | .shr .. => 0x8006 | .subnReg .. => 0x8007
  | .shl .. => 0x800E | .sneReg .. => 0x9000
  | .ldI _ => 0xA000 | .jpV0 _ => 0xB000 | .rnd .. => 0xC000 | .drw .. => 0xD000
  | .skp _ => 0xE09E | .sknp _ => 0xE0A1
  | .ldVxDt _ => 0xF007 | .ldVxK _ => 0xF00A | .ldDtVx _ => 0xF015 | .ldStVx _ => 0xF018
  | .addI _ => 0xF01E | .ldF _ => 0xF029 | .ldB _ => 0xF033
  | .storeRegs _ => 0xF055 | .loadRegs _ => 0xF065

/-- The bits of a word that select the instruction or one of its fields; the others are the
unexamined bits of R68. -/
def examinedMask : Instr → Word
  | .cls | .ret => 0xF0FF
  | .seReg .. | .sneReg .. => 0xFFF0
  | _ => 0xFFFF

end Sys2Proof
end

