-- ==== Sys2Proof/Config.lean ====
section
/-! DEFINITION. The parameters of spec 00_scope.md R5. The fixed ones are constants; the OPEN ones
that R5 lets the machine state hold "at construction" are the record `Config` (the font's place, the
font's bytes, the host's policy after a fault, the number of the random source's sequence); what the
OPEN random source draws is a constant with no body, so that no proof can see it (R23, R151; assumption
log 1). The fixed widths and counts of R5
stand in the types of Machine/State.lean: 16 registers, 16 keys, 16 stack entries (`STACK_DEPTH`,
decision D11), 64 by 32 pixels. -/

namespace Sys2Proof

/-- What the host does after a fault (R166): issue no further Cycle event, or go on. -/
inductive FaultPolicy where
  /-- No further Cycle event: the run is over. The default. -/
  | halt
  /-- The next Cycle event is issued as if nothing had happened. -/
  | skip
  deriving DecidableEq, Repr

/-- The OPEN parameters of R5 that the machine is constructed with. No step changes them. -/
structure Config where
  /-- `FONT_SET_START_ADDRESS`, 0 to 0x1B0 (R5, R206). -/
  fontBase : Fin 0x1B1
  /-- `FONT_SET`, 16 glyphs of 5 bytes (R5, R206). -/
  fontSet : Vector Byte 80
  /-- `FAULT_POLICY` (R5, R166). -/
  faultPolicy : FaultPolicy
  /-- `RandomSource`: which sequence of bytes this machine draws, an OPEN parameter (R5). Two runs from
  reset differ here, so that they need not draw the same sequence (R151; assumption log 1). -/
  source : Nat
  deriving DecidableEq, Repr

/-- `MEMORY_SIZE`: addresses 0x000 to 0xFFF (R5). -/
def Config.memorySize : Nat := 4096

/-- `MEMORY_START_ADDRESS`: where the program is loaded and `pc` starts (R5). -/
def Config.programStart : Word := 0x200#16

/-- `GLYPH_BYTES`: the bytes of one font glyph (R5). -/
def Config.glyphBytes : Nat := 5

/-- The glyphs of the customary font, digit by digit (R206, left half of the table). -/
def Config.glyphsLow : List Byte :=
  [0xF0, 0x90, 0x90, 0x90, 0xF0] ++ [0x20, 0x60, 0x20, 0x20, 0x70] ++
  [0xF0, 0x10, 0xF0, 0x80, 0xF0] ++ [0xF0, 0x10, 0xF0, 0x10, 0xF0] ++
  [0x90, 0x90, 0xF0, 0x10, 0x10] ++ [0xF0, 0x80, 0xF0, 0x10, 0xF0] ++
  [0xF0, 0x80, 0xF0, 0x90, 0xF0] ++ [0xF0, 0x10, 0x20, 0x40, 0x40]

/-- The glyphs of the customary font, digit by digit (R206, right half of the table). -/
def Config.glyphsHigh : List Byte :=
  [0xF0, 0x90, 0xF0, 0x90, 0xF0] ++ [0xF0, 0x90, 0xF0, 0x10, 0xF0] ++
  [0xF0, 0x90, 0xF0, 0x90, 0x90] ++ [0xE0, 0x90, 0xE0, 0x90, 0xE0] ++
  [0xF0, 0x80, 0x80, 0x80, 0xF0] ++ [0xE0, 0x90, 0x90, 0x90, 0xE0] ++
  [0xF0, 0x80, 0xF0, 0x80, 0xF0] ++ [0xF0, 0x80, 0xF0, 0x80, 0x80]

/-- The default `FONT_SET` (R206; decision D10; assumption log 6). -/
def Config.defaultFont : Vector Byte 80 :=
  ⟨(Config.glyphsLow ++ Config.glyphsHigh).toArray, rfl⟩

/-- The default configuration: font at 0x050, the customary font, `HALT` (R5; assumption log 6). The
sequence of `RandomSource` has no default, and number 0 stands for whichever it is (DESIGN CHOICE,
assumption log 1). -/
def Config.default : Config :=
  { fontBase := 0x050, fontSet := Config.defaultFont, faultPolicy := .halt, source := 0 }

/-- `RandomSource` (R151, decision D20): the byte that the `n`-th draw of the sequence numbered `source`
gives. It has no body, so no value, no relation between two draws of a sequence and none between two
sequences is provable: two runs that are not known to draw alike have different numbers (assumption
log 1). -/
opaque Config.randomSource (source n : Nat) : Byte

end Sys2Proof
end

