-- ==== Sys2Proof/Machine/State.lean ====
section
/-! DEFINITION. The machine's state (spec 10_state.md, the aggregate "Machine State") as plain data,
the status a Cycle event returns, the faults, the host's events, and the state after reset (R28). The
fields `status`, `draws` and `env` are the model's own: the last event's output (R157), the number of
random bytes drawn (assumption log 1), and the host's side of the interface (R155, R161, R166). -/

namespace Sys2Proof.Machine

/-- What kind of reference an `OutOfBoundsAddress` fault reports (R170, R174). -/
inductive OobKind where
  | fetch | read | write | keypad | load
  deriving DecidableEq, Repr

/-- The four faults of R170, each with the information R170 records. A fault ends its event with a
next state whose `status` carries it and which R176 describes (`raise` in Machine/Ops.lean); `step`
answers `fault` itself only when the host's policy is HALT and a Cycle event is due after one (R166).
That is safe: under HALT the run is over, so the model goes no further than the hardware does. -/
inductive Fault where
  /-- Raised by the Cycle event for a word with no handler (R171). As a stop: safe, see above. -/
  | decodeError (w : Word)
  /-- Raised by `00EE` with `sp = 0` (R172). As a stop: safe, see above. -/
  | stackUnderflow
  /-- Raised by `2nnn` with `sp = STACK_DEPTH` (R173). As a stop: safe, see above. -/
  | stackOverflow (nnn : Addr)
  /-- Raised by the fetch, `Fx33`, `Fx55`, `Fx65`, `Dxyn`, `Ex9E`, `ExA1` and the Load event (R174);
  the number is the offending address or index. As a stop: safe, see above. -/
  | outOfBoundsAddress (kind : OobKind) (addr : Nat)
  deriving DecidableEq, Repr

/-- Why the model has no next state. -/
inductive Refusal where
  /-- The instruction has no meaning in this model yet; raised by exec's refused arms only. Safe. -/
  | notModelled (mnemonic : String)
  /-- The host's schedule issues Load after the first Cycle event, for which the machine has no move
  (R163, 93_implementation_defined.md U18). Raised by the Load event only, by no instruction. Safe for
  a host that keeps R163, unsafe for one that does not (assumption log 4). -/
  | loadAfterFirstCycle
  /-- The host issues Cycle before the Loader has finished, for which the machine has no move (R163;
  assumption log 4). Raised by the Cycle event only, by no instruction. Safe for a host that keeps R163,
  unsafe for one that does not. -/
  | cycleBeforeLoaderFinished
  deriving DecidableEq, Repr

/-- The status a Cycle event returns to the host (R157). -/
inductive Status where
  /-- The instruction completed. -/
  | ok
  /-- The instruction was `Fx0A` and no key was pressed. -/
  | waiting
  /-- One of the four faults was raised. -/
  | fault (f : Fault)
  deriving DecidableEq, Repr

/-- The five events that drive the block (R155). -/
inductive HostEvent where
  /-- R200. -/
  | reset
  /-- `Load(bytes, addr)` (R204). -/
  | load (bytes : List Byte) (addr : Nat)
  /-- R156. -/
  | cycle
  /-- R185. -/
  | tick
  /-- `KeySet(k, b)`, `k` in 0 to 15 (R162). -/
  | keySet (k : Fin 16) (b : Bool)
  deriving DecidableEq, Repr

/-- The host's side of the interface. -/
structure Env where
  /-- The parameters the machine was constructed with (R5). -/
  config : Config
  /-- The events the host issues next, first one first; when none is left the host goes on issuing
  Cycle events (R155, R163, R185; assumption log 3). -/
  events : List HostEvent
  /-- Whether a Cycle event has been issued since Reset (R163: no Load after it). -/
  started : Bool
  /-- Whether the Loader has placed the font since Reset (R203; assumption log 4). -/
  fontLoaded : Bool
  /-- Whether the Loader has placed a program since Reset (R203; assumption log 4). -/
  programLoaded : Bool
  deriving DecidableEq, Repr

/-- The framebuffer, 32 rows of 64 pixels, `display[y][x]` (R24). -/
abbrev Display := Vector (Vector Bool 64) 32

/-- Memory as the cells that hold something other than 0x00, the reset value of every byte (R21,
R28), addresses strictly rising. -/
abbrev Memory := List Host.Cell

/-- The canonical form: addresses strictly rising, every listed byte nonzero, every address in the
4096-byte space (R21, R40). -/
abbrev Memory.wf (m : Memory) : Prop :=
  m.Pairwise (fun c d => c.1 < d.1) ∧ ∀ c ∈ m, c.1 < 4096 ∧ c.2 ≠ 0

/-- The Machine State of 10_state.md, then the model's own three fields. -/
structure State where
  /-- `V[0]` to `V[15]`; the last is `VF`, the flag register (R10, R11). -/
  v : Vector Byte 16
  /-- `I` (R13). -/
  index : Word
  /-- `pc` (R14). -/
  pc : Word
  /-- `sp`, the number of return addresses on the stack, 0 to 16 (R17). -/
  sp : Fin 17
  /-- `stack[0]` to `stack[15]` (R16). -/
  stack : Vector Word 16
  /-- `DT` (R18). -/
  delay : Byte
  /-- `ST` (R19). -/
  sound : Byte
  /-- `keypad[0]` to `keypad[15]`, true means pressed (R20). -/
  keypad : Vector Bool 16
  /-- `memory` (R21). -/
  mem : Memory
  /-- `current_opcode` (R22). -/
  opcode : Word
  /-- `display` (R24). -/
  display : Display
  /-- The model's own: the status the last Cycle event returned, or the fault a Load event has raised
  since (R157, assumption log 2). -/
  status : Status
  /-- The model's own: how many bytes of its sequence have been drawn from `RandomSource` (assumption
  log 1). -/
  draws : Nat
  /-- The model's own: the host's side of the interface (assumption logs 3, 4, 6). -/
  env : Env
  deriving DecidableEq, Repr

/-- The state after the Reset event (R28, R200): all fields zero but `pc`, which is
`MEMORY_START_ADDRESS`. The model's own fields: `status` OK, no byte drawn, the default configuration,
an empty schedule and nothing loaded (assumption logs 1 to 4, 6). -/
def State.reset : State :=
  { v := Vector.replicate 16 0
    index := 0
    pc := Config.programStart
    sp := 0
    stack := Vector.replicate 16 0
    delay := 0
    sound := 0
    keypad := Vector.replicate 16 false
    mem := []
    opcode := 0
    display := Vector.replicate 32 (Vector.replicate 64 false)
    status := .ok
    draws := 0
    env :=
      { config := Config.default, events := [], started := false, fontLoaded := false,
        programLoaded := false } }

end Sys2Proof.Machine
end

