-- ==== Sys2Proof/Machine/Ops.lean ====
section
/-! DEFINITION. The named operations over registers and memory, the range check of every memory
access, and raising a fault, which is the one way an instruction or an event reports one. -/

namespace Sys2Proof.Machine

/-- The three outcomes of a step of this machine. -/
abbrev Result := Host.Outcome State Fault Refusal

/-! ## Registers (R10, R13, R14, R18, R19) -/

/-- `V[x]` (R7, R10). -/
def State.reg (s : State) (x : RegIdx) : Byte := s.v[x.toNat]

/-- `V[x] <- b` (R7, R10). -/
def State.setReg (s : State) (x : RegIdx) (b : Byte) : State := { s with v := s.v.set x.toNat b }

/-- `I <- w`. -/
def State.setIndex (s : State) (w : Word) : State := { s with index := w }

/-- `pc <- w`. -/
def State.setPc (s : State) (w : Word) : State := { s with pc := w }

/-- `DT <- b`. -/
def State.setDelay (s : State) (b : Byte) : State := { s with delay := b }

/-- `ST <- b`. -/
def State.setSound (s : State) (b : Byte) : State := { s with sound := b }

/-- `memory <- m`. -/
def State.setMem (s : State) (m : Memory) : State := { s with mem := m }

/-- `display <- d`. -/
def State.setDisplay (s : State) (d : Display) : State := { s with display := d }

/-- `status <- c` (R157). -/
def State.setStatus (s : State) (c : Status) : State := { s with status := c }

/-- `V[i] <- b` for the bytes of the list, `i` counting up from the given number: the loop of `Fx65`
(R125). -/
def State.setRegsFrom (s : State) (i : Nat) : List Byte → State
  | [] => s
  | b :: bs => (s.setReg (BitVec.ofNat 4 i) b).setRegsFrom (i + 1) bs

/-- A skip: one extra 2 added to the advanced `pc` (R15, R80), a 16-bit addition. -/
def State.skipIf (s : State) (c : Bool) : State := if c then s.setPc (s.pc + 2) else s

/-! ## The call stack (R16, R17) -/

/-- Push the advanced `pc` at `stack[sp]`, then count it (R17, R84); nothing when 16 are held. -/
def State.push? (s : State) : Option State :=
  if h : s.sp.val < 16 then
    some { s with stack := s.stack.set s.sp.val s.pc, sp := ⟨s.sp.val + 1, by omega⟩ }
  else none

/-- Count one entry off, then load `pc` from `stack[sp]` (R17, R82); nothing when none is held. The
entry stays in its place as a stale value (R16). -/
def State.pop? (s : State) : Option State :=
  if h : 0 < s.sp.val then
    some { s with sp := ⟨s.sp.val - 1, by omega⟩, pc := s.stack[s.sp.val - 1] }
  else none

/-! ## Memory (R40 to R45) -/

/-- `memory[k]`; an unlisted address reads 0x00, the reset value of every byte (R28). -/
def Memory.read : Memory → Nat → Byte
  | [], _ => 0
  | (a, b) :: m, k => if k = a then b else Memory.read m k

/-- The cells of `m` with the cell of `k`, `v` put in before the first higher address. -/
def Memory.insertCell (k : Nat) (v : Byte) : Memory → Memory
  | [] => [(k, v)]
  | (a, b) :: m => if k < a then (k, v) :: (a, b) :: m else (a, b) :: Memory.insertCell k v m

/-- `memory[k] <- v`, keeping the canonical form (R45). -/
def Memory.write (m : Memory) (k : Nat) (v : Byte) : Memory :=
  let others := m.filter (fun c => c.1 != k)
  if v = 0 then others else Memory.insertCell k v others

/-- The `n` bytes from `a` upward, one `MemRead` after the other (R48). -/
def Memory.readBytes (m : Memory) (a : Nat) : Nat → List Byte
  | 0 => []
  | n + 1 => m.read a :: m.readBytes (a + 1) n

/-- Store the bytes from `a` upward, one `MemWrite` after the other (R48, R204). -/
def Memory.writeBytes (m : Memory) (a : Nat) : List Byte → Memory
  | [] => m
  | b :: bs => (m.write a b).writeBytes (a + 1) bs

/-! ## Faults (R170 to R178) -/

/-- The fault's cause code (R170, decision D13). -/
def Fault.code : Fault → Nat
  | .decodeError _ => 1
  | .stackUnderflow => 2
  | .stackOverflow _ => 3
  | .outOfBoundsAddress _ _ => 4

/-- Raise a fault: the event ends with the status `FAULT(cause, info)` and changes nothing else
(R176). Called with the state after the fetch it leaves `current_opcode` and the advanced `pc`, as
R176 says; called with the state before the fetch it leaves everything. There is no vector, no saved
`pc` and no return from a fault (R177, R178): the host's policy decides what follows (R166). -/
def raise (f : Fault) (s : State) : Result := .next (s.setStatus (.fault f))

/-- The check a group of byte accesses at `a, ..., a + len - 1` makes before the first of them
(R42, R45, R174): effective addresses are natural numbers and the fault reports the lowest one
outside memory (R175). No byte, no check. -/
def checkRange (kind : OobKind) (a len : Nat) : Option Fault :=
  if len = 0 ∨ a + len ≤ Config.memorySize then none
  else some (.outOfBoundsAddress kind (max a Config.memorySize))

/-- Go on to `t` when the check found nothing; otherwise raise its fault in `s` (R176: an instruction
that faults writes nothing). -/
def guarded (check : Option Fault) (s t : State) : Result :=
  match check with
  | none => .next t
  | some f => raise f s

end Sys2Proof.Machine
end

