-- ==== Sys2Proof/Machine/Flags.lean ====
section
/-! DEFINITION. The flag computations (41_alu.md R107 to R112): each is a bit, stored in `VF` as the
byte 0x00 or 0x01 after the result has been stored (R100). -/

namespace Sys2Proof.Machine

/-- The register number of `VF` (R11). -/
def flagReg : RegIdx := 15

/-- A flag as the byte written to `VF` (R11, R112). -/
def flagByte (c : Bool) : Byte := if c then 1 else 0

/-- The carry out of bit 7: the true sum exceeds 255 (R107). -/
def carryOut (a b : Byte) : Bool := decide (255 < a.toNat + b.toNat)

/-- No borrow: the minuend is at least the subtrahend (R108, R110). -/
def noBorrow (minuend subtrahend : Byte) : Bool := decide (subtrahend.toNat ≤ minuend.toNat)

/-- The bit a right shift by one shifts out, the old bit 0 (R109). -/
def lowBitOut (a : Byte) : Bool := a.getLsbD 0

/-- The bit a left shift by one shifts out, the old bit 7 (R111). -/
def highBitOut (a : Byte) : Bool := a.getLsbD 7

/-- Store the result in `V[x]`, then the flag in `VF`: for `x = F` the flag survives (R100). -/
def State.setRegFlag (s : State) (x : RegIdx) (result : Byte) (flag : Bool) : State :=
  (s.setReg x result).setReg flagReg (flagByte flag)

end Sys2Proof.Machine
end

