-- ==== Sys2Proof/Machine/Alu.lean ====
section
/-! DEFINITION. Register load, add-immediate and the `8xy_` family (41_alu.md R100 to R114). Every
operand is read from the state the meaning gets, before anything is written (R100). -/

namespace Sys2Proof.Machine

/-- `6xkk` (R101). -/
def execLdImm (x : RegIdx) (kk : Byte) (s : State) : Result := .next (s.setReg x kk)

/-- `7xkk` (R102): no flag. -/
def execAddImm (x : RegIdx) (kk : Byte) (s : State) : Result := .next (s.setReg x (s.reg x + kk))

/-- `8xy0` (R103): no flag. -/
def execLdReg (x y : RegIdx) (s : State) : Result := .next (s.setReg x (s.reg y))

/-- `8xy1` (R104): no flag. -/
def execOrReg (x y : RegIdx) (s : State) : Result := .next (s.setReg x (s.reg x ||| s.reg y))

/-- `8xy2` (R105): no flag. -/
def execAndReg (x y : RegIdx) (s : State) : Result := .next (s.setReg x (s.reg x &&& s.reg y))

/-- `8xy3` (R106): no flag. -/
def execXorReg (x y : RegIdx) (s : State) : Result := .next (s.setReg x (s.reg x ^^^ s.reg y))

/-- `8xy4` (R107). -/
def execAddReg (x y : RegIdx) (s : State) : Result :=
  .next (s.setRegFlag x (s.reg x + s.reg y) (carryOut (s.reg x) (s.reg y)))

/-- `8xy5` (R108). -/
def execSubReg (x y : RegIdx) (s : State) : Result :=
  .next (s.setRegFlag x (s.reg x - s.reg y) (noBorrow (s.reg x) (s.reg y)))

/-- `8xy6` (R109): `V[y]` is not used. -/
def execShr (x _y : RegIdx) (s : State) : Result :=
  .next (s.setRegFlag x (s.reg x >>> 1) (lowBitOut (s.reg x)))

/-- `8xy7` (R110). -/
def execSubnReg (x y : RegIdx) (s : State) : Result :=
  .next (s.setRegFlag x (s.reg y - s.reg x) (noBorrow (s.reg y) (s.reg x)))

/-- `8xyE` (R111): `V[y]` is not used. -/
def execShl (x _y : RegIdx) (s : State) : Result :=
  .next (s.setRegFlag x (s.reg x <<< 1) (highBitOut (s.reg x)))

end Sys2Proof.Machine
end

