-- ==== Sys2Proof/Machine/Operands.lean ====
section
/-! DEFINITION. The operand forms of the instruction set (30_encoding.md R63, 42_memory_index.md
R126): a register and an immediate byte are used as they stand; here are the address operand, the
register-indirect address, and the values the instructions of class F, E and D make of theirs. -/

namespace Sys2Proof.Machine

/-- `zext_16(nnn)` (R63): bits 15 to 12 are zero. -/
def addrOperand (nnn : Addr) : Word := nnn.setWidth 16

/-- `zext_16(V[x])`: a register as an addend of a 16-bit register (R89, R121). -/
def State.regWord (s : State) (x : RegIdx) : Word := (s.reg x).setWidth 16

/-- The address `I` as a natural number (R42). -/
def State.indexAddr (s : State) : Nat := s.index.toNat

/-- `V[0]` to `V[x]` inclusive (R124). -/
def State.regsUpTo (s : State) (x : RegIdx) : List Byte := s.v.toList.take (x.toNat + 1)

/-- The hundreds, tens and units digit of a byte, in the order `Fx33` stores them (R113, R123). -/
def decimalDigits (v : Byte) : List Byte :=
  [BitVec.ofNat 8 (v.toNat / 100), BitVec.ofNat 8 (v.toNat / 10 % 10), BitVec.ofNat 8 (v.toNat % 10)]

/-- `FONT_SET_START_ADDRESS + d * 5`, with the whole 8-bit value (R122). -/
def glyphAddr (c : Config) (d : Byte) : Word :=
  BitVec.ofNat 16 (c.fontBase.val + d.toNat * Config.glyphBytes)

/-- The level of the key whose number is `k`, or the fault of a number above 15 (R133 to R135). -/
def State.keyLevel (s : State) (k : Byte) : Except Fault Bool :=
  if h : k.toNat < 16 then .ok s.keypad[k.toNat]
  else .error (.outOfBoundsAddress .keypad k.toNat)

/-- The least pressed key (R136). -/
def State.leastPressed (s : State) : Option Nat := s.keypad.toList.findIdx? (fun b => b)

end Sys2Proof.Machine
end

