-- ==== Sys2Proof/Machine/Control.lean ====
section
/-! DEFINITION. The control-flow family (40_control_flow.md R80 to R90). The state a meaning gets is
the one after the fetch, whose `pc` is already `a + 2` (R80). -/

namespace Sys2Proof.Machine

/-- The screen with every pixel off. -/
def blankDisplay : Display := Vector.replicate 32 (Vector.replicate 64 false)

/-- `00E0` (R81). -/
def execCls (s : State) : Result := .next (s.setDisplay blankDisplay)

/-- `00EE` (R82). -/
def execRet (s : State) : Result :=
  match s.pop? with
  | some t => .next t
  | none => raise .stackUnderflow s

/-- `1nnn` (R83). -/
def execJp (nnn : Addr) (s : State) : Result := .next (s.setPc (addrOperand nnn))

/-- `2nnn` (R84). -/
def execCall (nnn : Addr) (s : State) : Result :=
  match s.push? with
  | some t => .next (t.setPc (addrOperand nnn))
  | none => raise (.stackOverflow nnn) s

/-- `3xkk` (R85). -/
def execSeImm (x : RegIdx) (kk : Byte) (s : State) : Result := .next (s.skipIf (s.reg x == kk))

/-- `4xkk` (R86). -/
def execSneImm (x : RegIdx) (kk : Byte) (s : State) : Result := .next (s.skipIf (s.reg x != kk))

/-- `5xy0` (R87). -/
def execSeReg (x y : RegIdx) (s : State) : Result := .next (s.skipIf (s.reg x == s.reg y))

/-- `9xy0` (R88). -/
def execSneReg (x y : RegIdx) (s : State) : Result := .next (s.skipIf (s.reg x != s.reg y))

/-- `Bnnn` (R89). -/
def execJpV0 (nnn : Addr) (s : State) : Result :=
  .next (s.setPc (addrOperand nnn + s.regWord 0))

end Sys2Proof.Machine
end

