-- ==== Sys2Proof/Machine/Draw.lean ====
section
/-! DEFINITION. The sprite rasteriser and collision detector (44_display.md R140 to R145). -/

namespace Sys2Proof.Machine

/-- `display[py][px]` (R24). -/
def Display.pixel (d : Display) (px : Fin 64) (py : Fin 32) : Bool := d[py][px]

/-- `display[py][px] <- display[py][px] ^ 1` (R140). -/
def Display.invert (d : Display) (px : Fin 64) (py : Fin 32) : Display :=
  d.set py (d[py].set px (!d[py][px]))

/-- Where sprite pixel `(j, r)` lands: each axis of each pixel is wrapped by itself (R141). -/
def pixelAt (ox oy j r : Nat) : Fin 64 × Fin 32 := (Fin.ofNat 64 (ox + j), Fin.ofNat 32 (oy + r))

/-- The screen pixels that sprite row `r` with byte `b` inverts, left to right: bit 7 is the leftmost
(R140, R141). -/
def rowPixels (ox oy r : Nat) (b : Byte) : List (Fin 64 × Fin 32) :=
  ((List.range 8).filter (fun j => b.getMsbD j)).map (fun j => pixelAt ox oy j r)

/-- The screen pixels that a sprite inverts, row by row from row `r` on (R140). -/
def spritePixels (ox oy : Nat) : Nat → List Byte → List (Fin 64 × Fin 32)
  | _, [] => []
  | r, b :: bs => rowPixels ox oy r b ++ spritePixels ox oy (r + 1) bs

/-- XOR one sprite pixel onto the screen and note a collision, a pixel that was on (R140, R142). -/
def blitPixel (acc : Display × Bool) (p : Fin 64 × Fin 32) : Display × Bool :=
  (Display.invert acc.1 p.1 p.2, acc.2 || Display.pixel acc.1 p.1 p.2)

/-- XOR the pixels onto the screen one after the other; the new screen and the collision bit (R140). -/
def blit (d : Display) (ps : List (Fin 64 × Fin 32)) : Display × Bool := ps.foldl blitPixel (d, false)

/-- The state a draw leaves: the screen, and last the collision in `VF` (R140, R145). -/
def State.afterBlit (s : State) (r : Display × Bool) : State :=
  (s.setDisplay r.1).setReg flagReg (flagByte r.2)

/-- `Dxyn` (R140): `n` bytes from `I`, all addresses checked before any pixel or `VF` changes (R143);
the origin is read before `VF` is written (R145); with `n = 0` nothing is read or drawn (R144). -/
def execDrw (x y : RegIdx) (n : BitVec 4) (s : State) : Result :=
  guarded (checkRange .read s.indexAddr n.toNat) s
    (s.afterBlit (blit s.display
      (spritePixels (s.reg x).toNat (s.reg y).toNat 0 (s.mem.readBytes s.indexAddr n.toNat))))

end Sys2Proof.Machine
end

