-- ==== Sys2Proof/Machine/MemIndex.lean ====
section
/-! DEFINITION. The memory and index family (42_memory_index.md R120 to R126). Every address is
checked before anything is written; `I` stays as it was in every load and store. -/

namespace Sys2Proof.Machine

/-- `Annn` (R120). -/
def execLdI (nnn : Addr) (s : State) : Result := .next (s.setIndex (addrOperand nnn))

/-- `Fx1E` (R121): a 16-bit sum, no flag, no range check. -/
def execAddI (x : RegIdx) (s : State) : Result := .next (s.setIndex (s.index + s.regWord x))

/-- `Fx29` (R122). -/
def execLdF (x : RegIdx) (s : State) : Result :=
  .next (s.setIndex (glyphAddr s.env.config (s.reg x)))

/-- `Fx33` (R123). -/
def execLdB (x : RegIdx) (s : State) : Result :=
  guarded (checkRange .write s.indexAddr 3) s
    (s.setMem (s.mem.writeBytes s.indexAddr (decimalDigits (s.reg x))))

/-- `Fx55` (R124). -/
def execStoreRegs (x : RegIdx) (s : State) : Result :=
  guarded (checkRange .write s.indexAddr (x.toNat + 1)) s
    (s.setMem (s.mem.writeBytes s.indexAddr (s.regsUpTo x)))

/-- `Fx65` (R125). -/
def execLoadRegs (x : RegIdx) (s : State) : Result :=
  guarded (checkRange .read s.indexAddr (x.toNat + 1)) s
    (s.setRegsFrom 0 (s.mem.readBytes s.indexAddr (x.toNat + 1)))

end Sys2Proof.Machine
end

