-- ==== Sys2Proof/Machine/Random.lean ====
section
/-! DEFINITION. The random instruction (45_random.md R150, R151). -/

namespace Sys2Proof.Machine

/-- `RandomByte()`: the next byte of the sequence the machine was constructed with, which no proof can
see (R151; assumption log 1). -/
def State.randomByte (s : State) : Byte := Config.randomSource s.env.config.source s.draws

/-- One byte has been drawn. -/
def State.drawn (s : State) : State := { s with draws := s.draws + 1 }

/-- `s` with the sequence numbered `source`, of which `n` bytes have been drawn: the machine of another
run. The runs from reset are those from `State.reset.withSource source 0`, one for every number (R151;
assumption log 1). -/
def State.withSource (s : State) (source n : Nat) : State :=
  { s with draws := n, env := { s.env with config := { s.env.config with source := source } } }

/-- `Cxkk` (R150): one draw, masked. -/
def execRnd (x : RegIdx) (kk : Byte) (s : State) : Result :=
  .next (s.drawn.setReg x (s.randomByte &&& kk))

end Sys2Proof.Machine
end

