-- ==== Sys2Proof/Machine/TimerKey.lean ====
section
/-! DEFINITION. The timer and keypad family (43_timer_keypad.md R130 to R136). -/

namespace Sys2Proof.Machine

/-- `Fx07` (R130). -/
def execLdVxDt (x : RegIdx) (s : State) : Result := .next (s.setReg x s.delay)

/-- `Fx15` (R131). -/
def execLdDtVx (x : RegIdx) (s : State) : Result := .next (s.setDelay (s.reg x))

/-- `Fx18` (R132). -/
def execLdStVx (x : RegIdx) (s : State) : Result := .next (s.setSound (s.reg x))

/-- Skip when the key numbered `k` has the given level; a number above 15 faults (R133 to R135). -/
def skipOnKey (k : Byte) (level : Bool) (s : State) : Result :=
  match s.keyLevel k with
  | .ok b => .next (s.skipIf (b == level))
  | .error f => raise f s

/-- `Ex9E` (R133). -/
def execSkp (x : RegIdx) (s : State) : Result := skipOnKey (s.reg x) true s

/-- `ExA1` (R134). -/
def execSknp (x : RegIdx) (s : State) : Result := skipOnKey (s.reg x) false s

/-- `Fx0A` (R136): the least pressed key; with none pressed `pc` steps back to this instruction and
the event ends with status `WAITING`. -/
def execLdVxK (x : RegIdx) (s : State) : Result :=
  match s.leastPressed with
  | some k => .next (s.setReg x (BitVec.ofNat 8 k))
  | none => .next ((s.setPc (s.pc - 2)).setStatus .waiting)

end Sys2Proof.Machine
end

