-- ==== Sys2Proof/Machine/Cycle.lean ====
section
/-! DEFINITION. The Cycle event: fetch, advance, decode, execute (46_cycle_driver.md R156 to R159),
and what the host's policy lets it do after a fault (R166). -/

namespace Sys2Proof.Machine

/-- `MemRead(pc, 2)`: the word at `pc`, high byte first, or the fault of a fetch above 0x0FFE, which
reports `pc` (R44, R46, R158). -/
def State.fetch (s : State) : Except Fault Word :=
  if s.pc.toNat + 2 ≤ Config.memorySize then
    .ok (wordOfBytes (s.mem.read s.pc.toNat) (s.mem.read (s.pc.toNat + 1)))
  else .error (.outOfBoundsAddress .fetch s.pc.toNat)

/-- The state in which the instruction with word `w` executes: `current_opcode` holds the word, `pc`
is advanced by 2, and the status is `OK` unless the instruction sets another (R156, R158, R159). -/
def State.fetched (s : State) (w : Word) : State :=
  { s with opcode := w, pc := s.pc + 2, status := .ok }

/-- Note on the host's side that a Cycle event has been issued (R163). -/
def State.markStarted (s : State) : State := { s with env := { s.env with started := true } }

/-- Fetch, advance, decode and execute (R156). A fetch fault changes nothing (R158); a word with no
handler raises `DecodeError` after the advance (R171). -/
def runInstruction (s : State) : Result :=
  match s.fetch with
  | .error f => raise f s
  | .ok w =>
    match decodeWord w with
    | .error _ => raise (.decodeError w) (s.fetched w)
    | .ok i => exec i (s.fetched w)

/-- The fault after which the host issues no further Cycle event: the last status was a fault and the
policy is HALT (R166). DESIGN CHOICE: the fault of a Load event ends the run as that of a Cycle event
does, until the next Reset (assumption log 7; the spec does not say). -/
def State.haltedBy (s : State) : Option Fault :=
  match s.status, s.env.config.faultPolicy with
  | .fault f, .halt => some f
  | _, _ => none

/-- The Loader has finished: it has been used for the font and for the program (R203, R163). -/
def State.loaderFinished (s : State) : Bool := s.env.fontLoaded && s.env.programLoaded

/-- The Cycle event as the host issues it: the run is over after a fault under HALT (R166), and no Cycle
event has a move before the Loader has finished (R163). -/
def cycle (s : State) : Result :=
  match s.haltedBy with
  | some f => .fault f
  | none =>
    if s.loaderFinished then runInstruction s.markStarted else .refused .cycleBeforeLoaderFinished

end Sys2Proof.Machine
end

