-- ==== Sys2Proof/Machine/Events.lean ====
section
/-! DEFINITION. The other four events of the interface (46_cycle_driver.md R155, R161, R162;
60_exceptions.md R185; 70_reset_and_hazards.md R200 to R206), and the next event of the host's
schedule. -/

namespace Sys2Proof.Machine

/-- A timer counts down by one and stays at 0 (R185). -/
def countDown (t : Byte) : Byte := if t = 0 then 0 else t - 1

/-- The Tick event (R185). -/
def tick (s : State) : State := (s.setDelay (countDown s.delay)).setSound (countDown s.sound)

/-- The KeySet event (R162). -/
def keySet (k : Fin 16) (b : Bool) (s : State) : State := { s with keypad := s.keypad.set k b }

/-- The Reset event (R200): every element of the Machine State at its reset value. The parameters and
the rest of the schedule are the host's and stay; the random source is not put into a known state
(R23, R151), so its sequence and the count of draws go on (assumption logs 1, 5). -/
def resetEvent (s : State) : State :=
  { State.reset with
    draws := s.draws
    env := { s.env with started := false, fontLoaded := false, programLoaded := false } }

/-- Note on the host's side what a completed Load has placed: the font at its base, or a program at the
program start (R203; assumption log 4). -/
def State.noteLoaded (s : State) (bytes : List Byte) (addr : Nat) : State :=
  { s with env := { s.env with
      fontLoaded := s.env.fontLoaded ||
        decide (addr = s.env.config.fontBase.val ∧ bytes = s.env.config.fontSet.toList)
      programLoaded := s.env.programLoaded || decide (addr = Config.programStart.toNat) } }

/-- The Load event (R204): the bytes verbatim from `addr` upward, or `OutOfBoundsAddress(LOAD)` with
nothing written. No Load has a move after the first Cycle event (R163). DESIGN CHOICE: the fault of a
Load stands in `status` like a Cycle's, so under HALT the run is over after it, and a later Load that
completes does not lift that: it leaves the status alone, and only Reset clears it. The spec does not
say (R166, R178, R204; assumption logs 2, 7). -/
def load (bytes : List Byte) (addr : Nat) (s : State) : Result :=
  if s.env.started then .refused .loadAfterFirstCycle
  else guarded (checkRange .load addr bytes.length) s
    ((s.setMem (s.mem.writeBytes addr bytes)).noteLoaded bytes addr)

/-- One event (R155, R164: atomic). -/
def handleEvent (e : HostEvent) (s : State) : Result :=
  match e with
  | .reset => .next (resetEvent s)
  | .load bytes addr => load bytes addr s
  | .cycle => cycle s
  | .tick => .next (tick s)
  | .keySet k b => .next (keySet k b s)

/-- The state whose schedule is `es`. -/
def State.withEvents (s : State) (es : List HostEvent) : State :=
  { s with env := { s.env with events := es } }

/-- The next event of the host's schedule; with none left the host issues a Cycle event (R155, R163;
assumption log 3). -/
def nextEvent (s : State) : Result :=
  match s.env.events with
  | [] => cycle s
  | e :: es => handleEvent e (s.withEvents es)

/-- The boot order (R203): Reset, the font, the program, then Cycle events. -/
def bootEvents (c : Config) (program : List Byte) : List HostEvent :=
  [.reset, .load c.fontSet.toList c.fontBase.val, .load program Config.programStart.toNat]

/-- Where an instruction can be placed so that the next fetch reads it whole: `pc`, or the program
start where `pc` is above 0x0FFE. -/
def State.fetchPlace (s : State) : Word :=
  if s.pc.toNat + 2 ≤ Config.memorySize then s.pc else Config.programStart

end Sys2Proof.Machine
end

