-- ==== Sys2Proof/Machine/Step.lean ====
section
/-! DEFINITION. The step of the machine is the next event of the host's schedule, a Cycle event when
the schedule is empty (46_cycle_driver.md R155, R156). -/

namespace Sys2Proof.Machine

/-- One step: one atomic event (R155, R164). -/
def step (s : State) : Host.Outcome State Fault Refusal := nextEvent s

/-- `s` with a finished Loader, as after the boot order (R203). -/
def State.withLoaderFinished (s : State) : State :=
  { s with env := { s.env with fontLoaded := true, programLoaded := true } }

/-- `s` with the instruction of a table row's word stored, high byte first (R46), where the next fetch
reads, and with what else the very next step needs to be that instruction's Cycle event: an empty
schedule, a finished Loader, and no fault for the HALT policy to stop at (assumption log 4). -/
def State.withFetchWord (s : State) (nbits w : Nat) : State :=
  ((({ s with pc := s.fetchPlace }.setMem
    (s.mem.writeBytes s.fetchPlace.toNat
      (bytesOfWord (BitVec.ofNat 16 (w % 2 ^ nbits))))).setStatus .ok).withEvents []).withLoaderFinished

end Sys2Proof.Machine
end

