-- ==== Sys2Proof/Safety.lean ====
section
/-! DEFINITION. The terms claims are written in: which parts of the state are unchanged, when an
outcome is the raising of a fault and nothing else (60_exceptions.md R176), which registers an
instruction reads and writes (10_state.md R12), when a Cycle event is the next step, and the invariant
of 10_state.md R29. -/

namespace Sys2Proof

/-- The registers an instruction reads (the matrix of R12). -/
def Instr.readsReg (i : Instr) (r : RegIdx) : Bool :=
  match i with
  | .seImm x _ | .sneImm x _ | .addImm x _ | .skp x | .sknp x | .ldDtVx x | .ldStVx x | .addI x
  | .ldF x | .ldB x => r == x
  | .seReg x y | .sneReg x y | .orReg x y | .andReg x y | .xorReg x y | .addReg x y | .subReg x y
  | .subnReg x y | .drw x y _ => r == x || r == y
  | .ldReg _ y => r == y
  | .shr x _ | .shl x _ => r == x
  | .jpV0 _ => r == 0
  | .storeRegs x => decide (r.toNat ≤ x.toNat)
  | .cls | .ret | .jp _ | .call _ | .ldImm _ _ | .ldI _ | .rnd _ _ | .ldVxDt _ | .ldVxK _
  | .loadRegs _ => false

/-- The registers an instruction may write (the matrix of R12: `W` and `F`). -/
def Instr.writesReg (i : Instr) (r : RegIdx) : Bool :=
  match i with
  | .ldImm x _ | .addImm x _ | .ldReg x _ | .orReg x _ | .andReg x _ | .xorReg x _ | .rnd x _
  | .ldVxDt x | .ldVxK x => r == x
  | .addReg x _ | .subReg x _ | .shr x _ | .subnReg x _ | .shl x _ => r == x || r == Machine.flagReg
  | .drw _ _ _ => r == Machine.flagReg
  | .loadRegs x => decide (r.toNat ≤ x.toNat)
  | .cls | .ret | .jp _ | .call _ | .seImm _ _ | .sneImm _ _ | .seReg _ _ | .sneReg _ _ | .ldI _
  | .jpV0 _ | .skp _ | .sknp _ | .ldDtVx _ | .ldStVx _ | .addI _ | .ldF _ | .ldB _ | .storeRegs _ =>
    false

end Sys2Proof

namespace Sys2Proof.Machine

/-- The parts of the state beside the general registers. -/
inductive Part where
  | index | pc | sp | stack | delay | sound | keypad | memory | opcode | display | status | draws | env
  deriving DecidableEq, Repr

/-- The part holds in `t` what it held in `s`: memory byte by byte, the screen pixel by pixel. -/
def Part.same (p : Part) (s t : State) : Prop :=
  match p with
  | .index => t.index = s.index
  | .pc => t.pc = s.pc
  | .sp => t.sp = s.sp
  | .stack => t.stack = s.stack
  | .delay => t.delay = s.delay
  | .sound => t.sound = s.sound
  | .keypad => t.keypad = s.keypad
  | .memory => ∀ a, t.mem.read a = s.mem.read a
  | .opcode => t.opcode = s.opcode
  | .display => ∀ px py, Display.pixel t.display px py = Display.pixel s.display px py
  | .status => t.status = s.status
  | .draws => t.draws = s.draws
  | .env => t.env = s.env

/-- Every part but the listed ones is unchanged. -/
def Unchanged (except : List Part) (s t : State) : Prop := ∀ p, p ∉ except → p.same s t

/-- Every general register but the listed ones is unchanged. -/
def RegsUnchanged (except : List RegIdx) (s t : State) : Prop :=
  ∀ r, r ∉ except → t.reg r = s.reg r

/-- The outcome raises `f` from `s` and does nothing else (R176): a next state whose `status` carries the
fault, which is the model's form of it (assumption log 2). -/
def Raises (f : Fault) (s : State) (o : Result) : Prop :=
  ∃ t, o = .next t ∧ t.status = .fault f ∧ RegsUnchanged [] s t ∧ Unchanged [.status] s t

/-- A word matching the row is decoded to the instruction that `f` reads from it (R66). -/
def Encodes (mask pattern : Word) (f : Word → Instr) : Prop :=
  ∀ w, w &&& mask = pattern → decodeWord w = .ok (f w)

/-- The next event of `s` is a Cycle event, and `r` is `s` with that event off the schedule (R155). -/
def CycleDue (s r : State) : Prop :=
  (s.env.events = [] ∧ r = s) ∨ ∃ es, s.env.events = .cycle :: es ∧ r = s.withEvents es

/-- The run is not over: the last status was no fault, or the policy is SKIP (R166). -/
def RunGoesOn (s : State) : Prop :=
  s.env.config.faultPolicy = .halt → ∀ f, s.status ≠ .fault f

/-- The host may issue a Cycle event: the run is not over (R166), and the Loader has finished (R163). -/
def MayCycle (s : State) : Prop :=
  RunGoesOn s ∧ s.env.fontLoaded = true ∧ s.env.programLoaded = true

/-- The two bytes at `pc` as a word, high byte first (R44, R46). -/
def State.nextWord (s : State) : Word :=
  wordOfBytes (s.mem.read s.pc.toNat) (s.mem.read (s.pc.toNat + 1))

/-- The last event that returns a status ended without a fault: what a successful state must meet
(R166: a faulted state is no successful end state). -/
def State.notFaulted (s : State) : Prop := ∀ f, s.status ≠ .fault f

/-- The invariant of R29, as far as the fields' types do not already say it: memory in its canonical
form, `pc` at most 0x10FE, and every live stack entry a value `pc` had after a fetch. -/
structure State.Inv (s : State) : Prop where
  memWf : Memory.wf s.mem
  pcLe : s.pc.toNat ≤ 0x10FE
  stackLive : ∀ k (h : k < 16), k < s.sp.val → 2 ≤ s.stack[k].toNat ∧ s.stack[k].toNat ≤ 0x1000

end Sys2Proof.Machine
end

