-- ==== Sys2Proof/Certificates/Slice0/Obligations.lean ====
section
/-! DEFINITION. The statements for the provers, taken from the numbered rules of spec/. `exec i s` runs
an instruction in the state after its fetch, so that `s.pc` is the advanced `pc`, `a + 2` (R80, R159);
`step s` is one whole event. `Unchanged`, `RegsUnchanged`, `Raises`, `Encodes`, `CycleDue`, `RunGoesOn`
and `MayCycle` are explained in Sys2Proof/Safety.lean. In every statement the status, and that a fault is
a next state, are the model's form (assumption log 2), and so are the host's schedule (log 3) and the
record of what the host has done (log 4). -/

open Sys2Proof Sys2Proof.Machine

/-! ## Encoding -/

/-- Decoding the encoded instruction gives it back, every field at every value, and leaves the bytes
after it (R46, R60, R61, R66). -/
def Obligations.DecodeOfEncodeIsTheInstruction : Prop :=
  ∀ (i : Instr) (rest : List Byte),
    decodeWord (encode i) = .ok i ∧ decode (encodeBytes i ++ rest) = .ok (i, rest)

/-- Encoding a decoded word gives the word with its unexamined bits cleared (R68, R69): decoding drops
no other bit. -/
def Obligations.EncodeOfDecodeClearsUnexaminedBits : Prop :=
  ∀ (w : Word) (i : Instr), decodeWord w = .ok i → encode i = w &&& examinedMask i

/-- A word decodes into a row of the opcode map exactly when it matches the row's mask and match (R66);
the match values tell the 34 rows apart. -/
def Obligations.DecodeFollowsTheOpcodeMap : Prop :=
  ∀ (w : Word) (i : Instr),
    (∃ j, decodeWord w = .ok j ∧ rowMask j = rowMask i ∧ rowMatch j = rowMatch i) ↔
      w &&& rowMask i = rowMatch i

/-- The illegal words are those of the table of R71 and no others. That class 0 is keyed by the whole
bottom byte, and that `0nnn` is no instruction, are decisions of the spec (D2, D3). -/
def Obligations.IllegalWordsAreThoseOfTheTable : Prop :=
  ∀ w : Word, (∃ e, decodeWord w = .error e) ↔
    (classOf w = 0x0 ∧ fieldKK w ∉ [0xE0, 0xEE]) ∨
    (classOf w = 0x8 ∧ fieldN w ∈ [0x8, 0x9, 0xA, 0xB, 0xC, 0xD, 0xF]) ∨
    (classOf w = 0xE ∧ fieldKK w ∉ [0x9E, 0xA1]) ∨
    (classOf w = 0xF ∧
      fieldKK w ∉ [0x07, 0x0A, 0x15, 0x18, 0x1E, 0x29, 0x33, 0x55, 0x65])

/-- A few words written out from the encodings, one of each format (R61, R62, R66). -/
def Obligations.SampleWordsDecodeRight : Prop :=
  decodeWord 0x00EE = .ok .ret ∧
  decodeWord 0x2ABC = .ok (.call 0xABC) ∧
  decodeWord 0x332A = .ok (.seImm 3 0x2A) ∧
  decodeWord 0x8AB4 = .ok (.addReg 0xA 0xB) ∧
  decodeWord 0xD5A3 = .ok (.drw 5 0xA 3) ∧
  decodeWord 0xF265 = .ok (.loadRegs 2)

/-- The bits that neither dispatch level examines do not change what an instruction does (R68):
`w[11:8]` of class 0, `w[3:0]` of classes 5 and 9, and the field `y` of `8xy6` and `8xyE`. -/
def Obligations.UnexaminedBitsChangeNothing : Prop :=
  (∀ (x x' : BitVec 4) (kk : Byte), decodeWord (packXKK 0x0 x kk) = decodeWord (packXKK 0x0 x' kk)) ∧
  (∀ x y n n' : BitVec 4,
    decodeWord (packNibbles 0x5 x y n) = decodeWord (packNibbles 0x5 x y n') ∧
    decodeWord (packNibbles 0x9 x y n) = decodeWord (packNibbles 0x9 x y n')) ∧
  (∀ (x y y' : BitVec 4) (s : State), ∃ i i' j j',
    decodeWord (packNibbles 0x8 x y 0x6) = .ok i ∧ decodeWord (packNibbles 0x8 x y' 0x6) = .ok i' ∧
    exec i s = exec i' s ∧
    decodeWord (packNibbles 0x8 x y 0xE) = .ok j ∧ decodeWord (packNibbles 0x8 x y' 0xE) = .ok j' ∧
    exec j s = exec j' s)

/-! ## Control flow -/

/-- `00E0` clears the framebuffer, and nothing else (R81). -/
def Obligations.ClearScreenTurnsEveryPixelOff : Prop :=
  Encodes 0xF0FF 0x00E0 (fun _ => .cls) ∧
  ∀ s : State, ∃ t, exec .cls s = .next t ∧
    (∀ px py, Display.pixel t.display px py = false) ∧
    RegsUnchanged [] s t ∧ Unchanged [.display] s t

/-- `00EE` pops the return address into `pc` and keeps the entry as a stale value; with an empty stack
it raises `StackUnderflow` (R82, R172). That the fault changes nothing else of the state is a decision
of the spec (D14). -/
def Obligations.ReturnPopsOrUnderflows : Prop :=
  Encodes 0xF0FF 0x00EE (fun _ => .ret) ∧
  ∀ s : State,
    (∀ h : 0 < s.sp.val, ∃ t, exec .ret s = .next t ∧
      t.sp.val = s.sp.val - 1 ∧ t.pc = s.stack[s.sp.val - 1] ∧
      RegsUnchanged [] s t ∧ Unchanged [.sp, .pc] s t) ∧
    (s.sp.val = 0 → Raises .stackUnderflow s (exec .ret s))

/-- `1nnn` loads `pc` with `nnn` (R83). -/
def Obligations.JumpLoadsTheAddress : Prop :=
  Encodes 0xF000 0x1000 (fun w => .jp (fieldNNN w)) ∧
  ∀ (nnn : Addr) (s : State), ∃ t, exec (.jp nnn) s = .next t ∧
    t.pc.toNat = nnn.toNat ∧ RegsUnchanged [] s t ∧ Unchanged [.pc] s t

/-- `2nnn` pushes the advanced `pc` and jumps; with 16 return addresses on the stack it raises
`StackOverflow` and pushes nothing (R84, R173). The depth 16, and that the fault changes nothing else
of the state, are decisions of the spec (D11, D14). -/
def Obligations.CallPushesOrOverflows : Prop :=
  Encodes 0xF000 0x2000 (fun w => .call (fieldNNN w)) ∧
  ∀ (nnn : Addr) (s : State),
    (s.sp.val < 16 → ∃ t, exec (.call nnn) s = .next t ∧
      t.sp.val = s.sp.val + 1 ∧ t.pc.toNat = nnn.toNat ∧
      (∀ k (h : k < 16), t.stack[k] = if k = s.sp.val then s.pc else s.stack[k]) ∧
      RegsUnchanged [] s t ∧ Unchanged [.sp, .pc, .stack] s t) ∧
    (s.sp.val = 16 → Raises (.stackOverflow nnn) s (exec (.call nnn) s))

/-- `3xkk` adds an extra 2 to `pc` when `V[x] = kk`, `4xkk` when it differs (R85, R86). -/
def Obligations.SkipComparesRegisterWithByte : Prop :=
  Encodes 0xF000 0x3000 (fun w => .seImm (fieldX w) (fieldKK w)) ∧
  Encodes 0xF000 0x4000 (fun w => .sneImm (fieldX w) (fieldKK w)) ∧
  ∀ (x : RegIdx) (kk : Byte) (s : State),
    (∃ t, exec (.seImm x kk) s = .next t ∧
      t.pc = (if s.reg x = kk then s.pc + 2 else s.pc) ∧
      RegsUnchanged [] s t ∧ Unchanged [.pc] s t) ∧
    (∃ t, exec (.sneImm x kk) s = .next t ∧
      t.pc = (if s.reg x = kk then s.pc else s.pc + 2) ∧
      RegsUnchanged [] s t ∧ Unchanged [.pc] s t)

/-- `5xy0` adds an extra 2 to `pc` when `V[x] = V[y]`, `9xy0` when they differ (R87, R88). -/
def Obligations.SkipComparesTwoRegisters : Prop :=
  Encodes 0xF000 0x5000 (fun w => .seReg (fieldX w) (fieldY w)) ∧
  Encodes 0xF000 0x9000 (fun w => .sneReg (fieldX w) (fieldY w)) ∧
  ∀ (x y : RegIdx) (s : State),
    (∃ t, exec (.seReg x y) s = .next t ∧
      t.pc = (if s.reg x = s.reg y then s.pc + 2 else s.pc) ∧
      RegsUnchanged [] s t ∧ Unchanged [.pc] s t) ∧
    (∃ t, exec (.sneReg x y) s = .next t ∧
      t.pc = (if s.reg x = s.reg y then s.pc else s.pc + 2) ∧
      RegsUnchanged [] s t ∧ Unchanged [.pc] s t)

/-- `Bnnn` loads `pc` with the true sum of `nnn` and `V0`, not reduced modulo 4096 (R89). -/
def Obligations.JumpWithOffsetAddsV0 : Prop :=
  Encodes 0xF000 0xB000 (fun w => .jpV0 (fieldNNN w)) ∧
  ∀ (nnn : Addr) (s : State), ∃ t, exec (.jpV0 nnn) s = .next t ∧
    t.pc.toNat = nnn.toNat + (s.reg 0).toNat ∧ RegsUnchanged [] s t ∧ Unchanged [.pc] s t

/-! ## Register load, add immediate, `8xy_` -/

/-- `6xkk` loads the byte into `V[x]` (R101). -/
def Obligations.LoadImmediateStoresTheByte : Prop :=
  Encodes 0xF000 0x6000 (fun w => .ldImm (fieldX w) (fieldKK w)) ∧
  ∀ (x : RegIdx) (kk : Byte) (s : State), ∃ t, exec (.ldImm x kk) s = .next t ∧
    t.reg x = kk ∧ RegsUnchanged [x] s t ∧ Unchanged [] s t

/-- `7xkk` adds modulo 256 and writes no flag. The whole meaning is a decision of the spec (D4, from
general knowledge). -/
def Obligations.AddImmediateWrapsWithoutFlag : Prop :=
  Encodes 0xF000 0x7000 (fun w => .addImm (fieldX w) (fieldKK w)) ∧
  ∀ (x : RegIdx) (kk : Byte) (s : State), ∃ t, exec (.addImm x kk) s = .next t ∧
    (t.reg x).toNat = ((s.reg x).toNat + kk.toNat) % 256 ∧
    RegsUnchanged [x] s t ∧ Unchanged [] s t

/-- `8xy0` copies, `8xy1`, `8xy2`, `8xy3` combine bit by bit, and none of the four writes `VF` as a
flag (R103 to R106). That they leave `VF` alone is a decision of the spec (D5). -/
def Obligations.CopyAndLogicWriteNoFlag : Prop :=
  Encodes 0xF00F 0x8000 (fun w => .ldReg (fieldX w) (fieldY w)) ∧
  Encodes 0xF00F 0x8001 (fun w => .orReg (fieldX w) (fieldY w)) ∧
  Encodes 0xF00F 0x8002 (fun w => .andReg (fieldX w) (fieldY w)) ∧
  Encodes 0xF00F 0x8003 (fun w => .xorReg (fieldX w) (fieldY w)) ∧
  ∀ (x y : RegIdx) (s : State),
    (∃ t, exec (.ldReg x y) s = .next t ∧ t.reg x = s.reg y ∧
      RegsUnchanged [x] s t ∧ Unchanged [] s t) ∧
    (∃ t, exec (.orReg x y) s = .next t ∧
      (∀ k, (t.reg x).getLsbD k = ((s.reg x).getLsbD k || (s.reg y).getLsbD k)) ∧
      RegsUnchanged [x] s t ∧ Unchanged [] s t) ∧
    (∃ t, exec (.andReg x y) s = .next t ∧
      (∀ k, (t.reg x).getLsbD k = ((s.reg x).getLsbD k && (s.reg y).getLsbD k)) ∧
      RegsUnchanged [x] s t ∧ Unchanged [] s t) ∧
    (∃ t, exec (.xorReg x y) s = .next t ∧
      (∀ k, (t.reg x).getLsbD k = ((s.reg x).getLsbD k ^^ (s.reg y).getLsbD k)) ∧
      RegsUnchanged [x] s t ∧ Unchanged [] s t)

/-- `8xy4` stores the sum modulo 256 and then the carry in `VF` (R107, R112). That for `x = F` the
flag survives is a decision of the spec (D6). -/
def Obligations.AddStoresSumThenCarry : Prop :=
  Encodes 0xF00F 0x8004 (fun w => .addReg (fieldX w) (fieldY w)) ∧
  ∀ (x y : RegIdx) (s : State), ∃ t, exec (.addReg x y) s = .next t ∧
    (x ≠ 15 → (t.reg x).toNat = ((s.reg x).toNat + (s.reg y).toNat) % 256) ∧
    t.reg 15 = (if 255 < (s.reg x).toNat + (s.reg y).toNat then 1 else 0) ∧
    RegsUnchanged [x, 15] s t ∧ Unchanged [] s t

/-- `8xy5` stores `V[x] - V[y]`, `8xy7` stores `V[y] - V[x]`, modulo 256, and then in `VF` 1 when no
borrow occurred (R108, R110, R112). That for `x = F` the flag survives is a decision of the spec
(D6). -/
def Obligations.SubtractStoresDifferenceThenNoBorrow : Prop :=
  Encodes 0xF00F 0x8005 (fun w => .subReg (fieldX w) (fieldY w)) ∧
  Encodes 0xF00F 0x8007 (fun w => .subnReg (fieldX w) (fieldY w)) ∧
  ∀ (x y : RegIdx) (s : State),
    (∃ t, exec (.subReg x y) s = .next t ∧
      (x ≠ 15 → ((t.reg x).toNat : Int) = ((s.reg x).toNat - (s.reg y).toNat : Int) % 256) ∧
      t.reg 15 = (if (s.reg y).toNat ≤ (s.reg x).toNat then 1 else 0) ∧
      RegsUnchanged [x, 15] s t ∧ Unchanged [] s t) ∧
    (∃ t, exec (.subnReg x y) s = .next t ∧
      (x ≠ 15 → ((t.reg x).toNat : Int) = ((s.reg y).toNat - (s.reg x).toNat : Int) % 256) ∧
      t.reg 15 = (if (s.reg x).toNat ≤ (s.reg y).toNat then 1 else 0) ∧
      RegsUnchanged [x, 15] s t ∧ Unchanged [] s t)

/-- `8xy6` halves `V[x]` and `8xyE` doubles it modulo 256, and then `VF` gets the bit shifted out;
`V[y]` plays no part (R109, R111). That for `x = F` the flag survives is a decision of the spec
(D6). -/
def Obligations.ShiftsStoreResultThenBitShiftedOut : Prop :=
  Encodes 0xF00F 0x8006 (fun w => .shr (fieldX w) (fieldY w)) ∧
  Encodes 0xF00F 0x800E (fun w => .shl (fieldX w) (fieldY w)) ∧
  ∀ (x y : RegIdx) (s : State),
    (∃ t, exec (.shr x y) s = .next t ∧
      (x ≠ 15 → (t.reg x).toNat = (s.reg x).toNat / 2) ∧
      (t.reg 15).toNat = (s.reg x).toNat % 2 ∧
      RegsUnchanged [x, 15] s t ∧ Unchanged [] s t) ∧
    (∃ t, exec (.shl x y) s = .next t ∧
      (x ≠ 15 → (t.reg x).toNat = 2 * (s.reg x).toNat % 256) ∧
      (t.reg 15).toNat = (s.reg x).toNat / 128 ∧
      RegsUnchanged [x, 15] s t ∧ Unchanged [] s t)

/-! ## Memory and index -/

/-- `Annn` loads `I` with `nnn` (R120). -/
def Obligations.LoadIndexStoresTheAddress : Prop :=
  Encodes 0xF000 0xA000 (fun w => .ldI (fieldNNN w)) ∧
  ∀ (nnn : Addr) (s : State), ∃ t, exec (.ldI nnn) s = .next t ∧
    t.index.toNat = nnn.toNat ∧ RegsUnchanged [] s t ∧ Unchanged [.index] s t

/-- `Fx1E` adds `V[x]` to `I` modulo 65536 and writes no flag (R121). That no flag is written is a
decision of the spec (D7). -/
def Obligations.AddToIndexWrapsWithoutFlag : Prop :=
  Encodes 0xF0FF 0xF01E (fun w => .addI (fieldX w)) ∧
  ∀ (x : RegIdx) (s : State), ∃ t, exec (.addI x) s = .next t ∧
    t.index.toNat = (s.index.toNat + (s.reg x).toNat) % 65536 ∧
    RegsUnchanged [] s t ∧ Unchanged [.index] s t

/-- `Fx29` points `I` at `FONT_SET_START_ADDRESS + V[x] * 5`, for every value of the parameter (R122).
That the whole 8-bit value is used is a decision of the spec (D23). -/
def Obligations.PointAtGlyphUsesTheWholeByte : Prop :=
  Encodes 0xF0FF 0xF029 (fun w => .ldF (fieldX w)) ∧
  ∀ (x : RegIdx) (s : State), ∃ t, exec (.ldF x) s = .next t ∧
    t.index.toNat = s.env.config.fontBase.val + (s.reg x).toNat * 5 ∧
    RegsUnchanged [] s t ∧ Unchanged [.index] s t

/-- `Fx33` stores the hundreds, tens and units digit of `V[x]` at `I`, `I + 1`, `I + 2`; with an
address above 4095 it raises `OutOfBoundsAddress` and writes nothing (R123). That the fault changes
nothing else of the state is a decision of the spec (D14). -/
def Obligations.DecimalDigitsAreStoredAtIndex : Prop :=
  Encodes 0xF0FF 0xF033 (fun w => .ldB (fieldX w)) ∧
  ∀ (x : RegIdx) (s : State),
    (s.index.toNat + 2 ≤ 4095 → ∃ t, exec (.ldB x) s = .next t ∧
      (t.mem.read s.index.toNat).toNat = (s.reg x).toNat / 100 ∧
      (t.mem.read (s.index.toNat + 1)).toNat = (s.reg x).toNat / 10 % 10 ∧
      (t.mem.read (s.index.toNat + 2)).toNat = (s.reg x).toNat % 10 ∧
      (∀ a, a < s.index.toNat ∨ s.index.toNat + 2 < a → t.mem.read a = s.mem.read a) ∧
      RegsUnchanged [] s t ∧ Unchanged [.memory] s t) ∧
    (4095 < s.index.toNat + 2 →
      Raises (.outOfBoundsAddress .write (max s.index.toNat 4096)) s (exec (.ldB x) s))

/-- `Fx55` stores `V[0]` to `V[x]` from `I` upward and every other byte of memory stays; with an
address above 4095 it raises `OutOfBoundsAddress` and writes nothing (R124). That `I` is unchanged and
that the fault changes nothing else are decisions of the spec (D24, D14). -/
def Obligations.StoreRegistersWritesARange : Prop :=
  Encodes 0xF0FF 0xF055 (fun w => .storeRegs (fieldX w)) ∧
  ∀ (x : RegIdx) (s : State),
    (s.index.toNat + x.toNat ≤ 4095 → ∃ t, exec (.storeRegs x) s = .next t ∧
      (∀ r : RegIdx, r.toNat ≤ x.toNat → t.mem.read (s.index.toNat + r.toNat) = s.reg r) ∧
      (∀ a, a < s.index.toNat ∨ s.index.toNat + x.toNat < a → t.mem.read a = s.mem.read a) ∧
      RegsUnchanged [] s t ∧ Unchanged [.memory] s t) ∧
    (4095 < s.index.toNat + x.toNat →
      Raises (.outOfBoundsAddress .write (max s.index.toNat 4096)) s (exec (.storeRegs x) s))

/-- `Fx65` loads `V[0]` to `V[x]` from `I` upward and no other register; with an address above 4095 it
raises `OutOfBoundsAddress` and writes no register (R125). That `I` is unchanged and that the fault
changes nothing else are decisions of the spec (D24, D14). -/
def Obligations.LoadRegistersReadsARange : Prop :=
  Encodes 0xF0FF 0xF065 (fun w => .loadRegs (fieldX w)) ∧
  ∀ (x : RegIdx) (s : State),
    (s.index.toNat + x.toNat ≤ 4095 → ∃ t, exec (.loadRegs x) s = .next t ∧
      (∀ r : RegIdx, t.reg r =
        if r.toNat ≤ x.toNat then s.mem.read (s.index.toNat + r.toNat) else s.reg r) ∧
      Unchanged [] s t) ∧
    (4095 < s.index.toNat + x.toNat →
      Raises (.outOfBoundsAddress .read (max s.index.toNat 4096)) s (exec (.loadRegs x) s))

/-- Registers stored by `Fx55` and loaded again by `Fx65` from the same index and memory come back,
whatever the registers held in between (95_test_vectors.md S4, R124, R125). -/
def Obligations.StoreThenLoadGivesTheRegistersBack : Prop :=
  ∀ (x : RegIdx) (s u : State), s.index.toNat + x.toNat ≤ 4095 →
    ∃ t, exec (.storeRegs x) s = .next t ∧
      (u.index = s.index → (∀ a, u.mem.read a = t.mem.read a) →
        ∃ v, exec (.loadRegs x) u = .next v ∧
          ∀ r : RegIdx, r.toNat ≤ x.toNat → v.reg r = s.reg r)

/-! ## Timers and keypad -/

/-- `Fx07` reads the delay timer into `V[x]`; `Fx18` sets the sound timer (R130, R132). -/
def Obligations.DelayIsReadAndSoundIsSet : Prop :=
  Encodes 0xF0FF 0xF007 (fun w => .ldVxDt (fieldX w)) ∧
  Encodes 0xF0FF 0xF018 (fun w => .ldStVx (fieldX w)) ∧
  ∀ (x : RegIdx) (s : State),
    (∃ t, exec (.ldVxDt x) s = .next t ∧ t.reg x = s.delay ∧
      RegsUnchanged [x] s t ∧ Unchanged [] s t) ∧
    (∃ t, exec (.ldStVx x) s = .next t ∧ t.sound = s.reg x ∧
      RegsUnchanged [] s t ∧ Unchanged [.sound] s t)

/-- `Fx15` sets the delay timer, and after `n` Tick events it has gone down by `n`, floored at 0: a
value `v` reaches 0 after exactly `v` of them (R131). -/
def Obligations.DelayIsSetAndCountsDownToZero : Prop :=
  Encodes 0xF0FF 0xF015 (fun w => .ldDtVx (fieldX w)) ∧
  ∀ (x : RegIdx) (s : State), ∃ t, exec (.ldDtVx x) s = .next t ∧ t.delay = s.reg x ∧
    RegsUnchanged [] s t ∧ Unchanged [.delay] s t ∧
    ∀ n : Nat, (tick^[n] t).delay.toNat = (s.reg x).toNat - n

/-- `Ex9E` skips when the key named by `V[x]` is pressed, `ExA1` when it is not; a key number above 15
raises `OutOfBoundsAddress(KEYPAD)` (R133, R134). That it faults and is not masked, and that the fault
changes nothing else, are decisions of the spec (R135, D18, D14). -/
def Obligations.KeySkipsTestTheKeyNamedByTheRegister : Prop :=
  Encodes 0xF0FF 0xE09E (fun w => .skp (fieldX w)) ∧
  Encodes 0xF0FF 0xE0A1 (fun w => .sknp (fieldX w)) ∧
  ∀ (x : RegIdx) (s : State),
    (∀ h : (s.reg x).toNat < 16,
      (∃ t, exec (.skp x) s = .next t ∧
        t.pc = (if s.keypad[(s.reg x).toNat] = true then s.pc + 2 else s.pc) ∧
        RegsUnchanged [] s t ∧ Unchanged [.pc] s t) ∧
      (∃ t, exec (.sknp x) s = .next t ∧
        t.pc = (if s.keypad[(s.reg x).toNat] = true then s.pc else s.pc + 2) ∧
        RegsUnchanged [] s t ∧ Unchanged [.pc] s t)) ∧
    (16 ≤ (s.reg x).toNat →
      Raises (.outOfBoundsAddress .keypad (s.reg x).toNat) s (exec (.skp x) s) ∧
      Raises (.outOfBoundsAddress .keypad (s.reg x).toNat) s (exec (.sknp x) s))

/-- `Fx0A` stores the least pressed key; with no key pressed it steps `pc` back by 2, answers
`WAITING` and changes nothing else (R136). The step back, the level test and the lowest key are
decisions of the spec (D19). -/
def Obligations.KeyWaitStoresLeastKeyOrStepsBack : Prop :=
  Encodes 0xF0FF 0xF00A (fun w => .ldVxK (fieldX w)) ∧
  ∀ (x : RegIdx) (s : State),
    (∀ k (h : k < 16), s.keypad[k] = true → (∀ j (hj : j < k), s.keypad[j] = false) →
      ∃ t, exec (.ldVxK x) s = .next t ∧ (t.reg x).toNat = k ∧
        RegsUnchanged [x] s t ∧ Unchanged [] s t) ∧
    ((∀ k (h : k < 16), s.keypad[k] = false) →
      ∃ t, exec (.ldVxK x) s = .next t ∧ t.pc = s.pc - 2 ∧ t.status = .waiting ∧
        RegsUnchanged [] s t ∧ Unchanged [.pc, .status] s t)

/-! ## Display and random -/

/-- `Dxyn` inverts exactly the screen pixels under a sprite bit 1, each axis of each pixel wrapped by
itself, and then sets `VF` to 1 when one of them was on before and to 0 otherwise; with a sprite byte
outside memory it raises `OutOfBoundsAddress` and changes nothing else (R140 to R143). That the
addresses are checked first, that `Dxy0` draws nothing and that the origin is read before `VF` is
written are decisions of the spec (D14, D22, D6). -/
def Obligations.DrawXorsTheSpriteAndReportsCollision : Prop :=
  Encodes 0xF000 0xD000 (fun w => .drw (fieldX w) (fieldY w) (fieldN w)) ∧
  ∀ (x y : RegIdx) (n : BitVec 4) (s : State),
    (n.toNat = 0 ∨ s.index.toNat + n.toNat ≤ 4096 → ∃ t, exec (.drw x y n) s = .next t ∧
      (∀ (r j : Nat) (px : Fin 64) (py : Fin 32), r < n.toNat → j < 8 →
        px.val = ((s.reg x).toNat + j) % 64 → py.val = ((s.reg y).toNat + r) % 32 →
        Display.pixel t.display px py =
          (Display.pixel s.display px py ^^
            (s.mem.read (s.index.toNat + r)).toNat.testBit (7 - j))) ∧
      (∀ (px : Fin 64) (py : Fin 32),
        (∀ r j, r < n.toNat → j < 8 →
          ¬ (px.val = ((s.reg x).toNat + j) % 64 ∧ py.val = ((s.reg y).toNat + r) % 32)) →
        Display.pixel t.display px py = Display.pixel s.display px py) ∧
      ((t.reg 15 = 1 ∧ ∃ (px : Fin 64) (py : Fin 32),
          Display.pixel s.display px py = true ∧ Display.pixel t.display px py = false) ∨
        (t.reg 15 = 0 ∧ ∀ (px : Fin 64) (py : Fin 32),
          Display.pixel s.display px py = true → Display.pixel t.display px py = true)) ∧
      RegsUnchanged [15] s t ∧ Unchanged [.display] s t) ∧
    (n.toNat ≠ 0 → 4096 < s.index.toNat + n.toNat →
      Raises (.outOfBoundsAddress .read (max s.index.toNat 4096)) s (exec (.drw x y n) s))

/-- Drawing the same sprite twice at the same place gives the screen back; and when the screen was clear
before the first draw, the second one reports a collision exactly when the sprite has a bit set
(R142, 95_test_vectors.md S5). -/
def Obligations.DrawingTwiceGivesTheScreenBack : Prop :=
  ∀ (x y : RegIdx) (n : BitVec 4) (s u : State),
    n.toNat = 0 ∨ s.index.toNat + n.toNat ≤ 4096 →
    ∃ t, exec (.drw x y n) s = .next t ∧
      (u.index = s.index → (∀ a, u.mem.read a = s.mem.read a) →
        u.reg x = s.reg x → u.reg y = s.reg y → u.display = t.display →
        ∃ v, exec (.drw x y n) u = .next v ∧
          (∀ px py, Display.pixel v.display px py = Display.pixel s.display px py) ∧
          ((∀ px py, Display.pixel s.display px py = false) →
            (v.reg 15 = 1 ↔ ∃ r, r < n.toNat ∧ s.mem.read (s.index.toNat + r) ≠ 0)))

/-- `Cxkk` draws one byte and stores it under the mask, whatever was drawn before; bits outside `kk`
are 0 (R150). No other instruction draws, and none depends on what is drawn: from the same state in a run
with another sequence, or at another draw of it, it does the same. The byte is a free value, and the
statement holds for every sequence and every count of draws, so it relates no two runs' draws (R151;
assumption log 1). -/
def Obligations.RandomByteIsDrawnUnderTheMask : Prop :=
  Encodes 0xF000 0xC000 (fun w => .rnd (fieldX w) (fieldKK w)) ∧
  (∀ (x : RegIdx) (kk : Byte) (s : State), ∃ t, exec (.rnd x kk) s = .next t ∧
    t.reg x = (Config.randomSource s.env.config.source s.draws &&& kk) ∧ t.draws = s.draws + 1 ∧
    (∀ k, kk.getLsbD k = false → (t.reg x).getLsbD k = false) ∧
    RegsUnchanged [x] s t ∧ Unchanged [.draws] s t) ∧
  (∀ (i : Instr) (s t : State), (∀ x kk, i ≠ .rnd x kk) → exec i s = .next t →
    t.draws = s.draws ∧
    ∀ source n, exec i (s.withSource source n) = .next (t.withSource source n))

/-! ## The Cycle event -/

/-- When a Cycle event is due and the word at `pc` decodes to an instruction, the step is that
instruction in the state the fetch leaves: `current_opcode` is the word, `pc` is advanced by 2, the
status is `OK` until the instruction sets another, and of the rest only the host's own record changes
(R156, R158, R159). The status, the schedule and the record are the model's (assumption logs 2, 3, 4). -/
def Obligations.StepRunsTheDecodedInstruction : Prop :=
  ∀ (s r : State) (i : Instr), CycleDue s r → MayCycle s → s.pc.toNat ≤ 0x0FFE →
    decodeWord (wordOfBytes (s.mem.read s.pc.toNat) (s.mem.read (s.pc.toNat + 1))) = .ok i →
    ∃ u, step s = exec i u ∧ u = r.markStarted.fetched s.nextWord ∧
      u.opcode = wordOfBytes (s.mem.read s.pc.toNat) (s.mem.read (s.pc.toNat + 1)) ∧
      u.pc = s.pc + 2 ∧ u.status = .ok ∧
      u.env.config = s.env.config ∧ u.env.events = r.env.events ∧
      RegsUnchanged [] s u ∧ Unchanged [.opcode, .pc, .status, .env] s u

/-- A fetch at `pc` above 0x0FFE raises `OutOfBoundsAddress(FETCH, pc)` and changes nothing of the
Machine State (R158). That it faults also when only the second byte is outside is a decision of the
spec (D16); that a fault is a next state is the model's choice (assumption log 2). -/
def Obligations.FetchAboveMemoryFaultsAndChangesNothing : Prop :=
  ∀ s r : State, CycleDue s r → MayCycle s → 0x0FFE < s.pc.toNat →
    ∃ t, step s = .next t ∧ t.status = .fault (.outOfBoundsAddress .fetch s.pc.toNat) ∧
      RegsUnchanged [] s t ∧ Unchanged [.status, .env] s t

/-- A fetched word with no handler, and no other, raises `DecodeError` with the word: `current_opcode`
is the word, `pc` is advanced by 2, nothing else of the Machine State changes (R171). Which words these
are rests on decisions of the spec (D2, D3); that a fault is a next state, with the event's output in the
field `status`, is the model's choice (assumption log 2). -/
def Obligations.IllegalWordRaisesDecodeError : Prop :=
  ∀ s r : State, CycleDue s r → MayCycle s → s.pc.toNat ≤ 0x0FFE →
    ((∃ e, decodeWord s.nextWord = .error e) →
      ∃ t, step s = .next t ∧ t.status = .fault (.decodeError s.nextWord) ∧
        t.opcode = s.nextWord ∧ t.pc = s.pc + 2 ∧
        RegsUnchanged [] s t ∧ Unchanged [.opcode, .pc, .status, .env] s t) ∧
    ((∃ i, decodeWord s.nextWord = .ok i) →
      ∀ t w, step s = .next t → t.status ≠ .fault (.decodeError w))

/-- After a fault the policy HALT lets no further Cycle event happen: the run is over (R166). Under
SKIP, and after any other status, the next Cycle event does not depend on the status (R157), all else of
the state being equal, the random sequence and the count of draws too (assumption log 1). That HALT is the
default and what SKIP means are decisions of the spec (D15). The model's choices: the status in a field (assumption log 2), the outcome
fault as the end of the run, and the fault of a Load ending it as that of a Cycle does (log 7). -/
def Obligations.FaultPolicyDecidesWhatFollows : Prop :=
  (∀ (s r : State) (f : Fault), CycleDue s r → s.env.config.faultPolicy = .halt →
    s.status = .fault f → step s = .fault f) ∧
  (∀ (s r : State) (c : Status), CycleDue s r → MayCycle s → MayCycle (s.setStatus c) →
    step (s.setStatus c) = step s)

/-- Every instruction answers a next state, from every state: there is no instruction the model
refuses (R66). That an instruction's own fault is a next state too, the one R176 describes, is the model's
choice (assumption log 2): R170 and R176 give the fault and the state it leaves, not the form. -/
def Obligations.EveryInstructionAnswersANextState : Prop :=
  ∀ (i : Instr) (s : State), ∃ t, exec i s = .next t

/-- Faults are precise: an instruction that raises one changes nothing but the status (R176). This is
a decision of the spec (D14); that a fault is a next state with a status is the model's choice
(assumption log 2). -/
def Obligations.FaultingInstructionChangesNothing : Prop :=
  ∀ (i : Instr) (s t : State) (f : Fault), s.notFaulted → exec i s = .next t →
    t.status = .fault f → RegsUnchanged [] s t ∧ Unchanged [.status] s t

/-- Which instruction raises which fault, when, and with what information (R170, R174): the table of
causes, for every instruction. The information recorded, the depth 16 and the key number's range are
decisions of the spec (D13, D11, D18); that a fault is a next state with a status is the model's choice
(assumption log 2). -/
def Obligations.EachFaultHasItsCause : Prop :=
  ∀ (i : Instr) (s : State) (f : Fault), s.notFaulted →
    ((∃ t, exec i s = .next t ∧ t.status = .fault f) ↔
      (i = .ret ∧ s.sp.val = 0 ∧ f = .stackUnderflow) ∨
      (∃ nnn, i = .call nnn ∧ s.sp.val = 16 ∧ f = .stackOverflow nnn) ∨
      (∃ x, i = .ldB x ∧ 4095 < s.index.toNat + 2 ∧
        f = .outOfBoundsAddress .write (max s.index.toNat 4096)) ∨
      (∃ x, i = .storeRegs x ∧ 4095 < s.index.toNat + x.toNat ∧
        f = .outOfBoundsAddress .write (max s.index.toNat 4096)) ∨
      (∃ x, i = .loadRegs x ∧ 4095 < s.index.toNat + x.toNat ∧
        f = .outOfBoundsAddress .read (max s.index.toNat 4096)) ∨
      (∃ x y n, i = .drw x y n ∧ 0 < n.toNat ∧ 4095 < s.index.toNat + n.toNat - 1 ∧
        f = .outOfBoundsAddress .read (max s.index.toNat 4096)) ∨
      (∃ x, (i = .skp x ∨ i = .sknp x) ∧ 15 < (s.reg x).toNat ∧
        f = .outOfBoundsAddress .keypad (s.reg x).toNat))

/-- No instruction but `Fx0A` suspends, and it does so exactly when no key is pressed (R180, R192). The
status is the model's field (assumption log 2). -/
def Obligations.OnlyTheKeyWaitSuspends : Prop :=
  ∀ (i : Instr) (s : State), s.status ≠ .waiting →
    ((∃ t, exec i s = .next t ∧ t.status = .waiting) ↔
      (∃ x, i = .ldVxK x) ∧ ∀ k (h : k < 16), s.keypad[k] = false)

/-- While no key is pressed and the host issues Cycle events only, a machine at an `Fx0A` makes no
progress: after every number of steps it is still there, with the status `WAITING`, `current_opcode`
the `Fx0A`, and nothing else changed (R136, R192). The status, and an empty schedule that means Cycle
events only, are the model's (assumption logs 2, 3). -/
def Obligations.KeyWaitMakesNoProgress : Prop :=
  ∀ (x : RegIdx) (s : State) (n : Nat), s.env.events = [] → MayCycle s → s.pc.toNat ≤ 0x0FFE →
    decodeWord s.nextWord = .ok (.ldVxK x) → (∀ k (h : k < 16), s.keypad[k] = false) →
    ∃ t, Host.Core.run ⟨State, Fault, Refusal, step, State.reset⟩ (n + 1) s = .next t ∧
      t.status = .waiting ∧ t.opcode = s.nextWord ∧
      RegsUnchanged [] s t ∧ Unchanged [.opcode, .status, .env] s t

/-- A jump to its own address leaves the whole Machine State as it is, for every number of Cycle
events, but that `current_opcode` holds the jump's word (R165). The status, and an empty schedule that
means Cycle events only, are the model's (assumption logs 2, 3). -/
def Obligations.SelfJumpRepeatsForEver : Prop :=
  ∀ (nnn : Addr) (s : State) (n : Nat), s.env.events = [] → MayCycle s →
    s.pc.toNat ≤ 0x0FFE → s.pc.toNat = nnn.toNat → decodeWord s.nextWord = .ok (.jp nnn) →
    ∃ t, Host.Core.run ⟨State, Fault, Refusal, step, State.reset⟩ (n + 1) s = .next t ∧
      t.status = .ok ∧ t.opcode = s.nextWord ∧
      RegsUnchanged [] s t ∧ Unchanged [.opcode, .status, .env] s t

/-- A store is seen by the very next fetch (R54, R211): after `Fx55` with `x` at least 1 over the bytes
at `pc`, and with a Cycle event due, the step executes the word whose bytes are `V0` and `V1`. An empty
schedule that means a Cycle event is the model's (assumption log 3). -/
def Obligations.StoredCodeIsFetchedNext : Prop :=
  ∀ (x : RegIdx) (s : State) (i : Instr), 1 ≤ x.toNat → s.index = s.pc →
    s.index.toNat + x.toNat ≤ 4095 → s.env.events = [] → MayCycle s →
    decodeWord (wordOfBytes (s.reg 0) (s.reg 1)) = .ok i →
    ∃ t, exec (.storeRegs x) s = .next t ∧
      step t = exec i (t.markStarted.fetched (wordOfBytes (s.reg 0) (s.reg 1)))

/-! ## The host's events -/

/-- The Tick event counts both timers down by one, floored at 0, and changes nothing else (R185). The
schedule, from which the step takes its first event, is the model's (assumption log 3). -/
def Obligations.TickCountsBothTimersDown : Prop :=
  ∀ (s : State) (es : List HostEvent), s.env.events = .tick :: es →
    ∃ t, step s = .next t ∧
      t.delay.toNat = s.delay.toNat - 1 ∧ t.sound.toNat = s.sound.toNat - 1 ∧
      t.env = { s.env with events := es } ∧
      RegsUnchanged [] s t ∧ Unchanged [.delay, .sound, .env] s t

/-- The KeySet event sets one key and changes nothing else (R162). That the events stand as a list, from
which the step takes the first, is the model's choice (assumption log 3). -/
def Obligations.KeySetWritesOneKey : Prop :=
  ∀ (s : State) (k : Fin 16) (b : Bool) (es : List HostEvent), s.env.events = .keySet k b :: es →
    ∃ t, step s = .next t ∧
      (∀ j : Fin 16, t.keypad[j] = if j = k then b else s.keypad[j]) ∧
      t.env = { s.env with events := es } ∧
      RegsUnchanged [] s t ∧ Unchanged [.keypad, .env] s t

/-- The Reset event sets every element of the Machine State to its reset value (R200, the table of
R28): everything zero, off or not pressed but `pc`, which is 0x200. -/
def Obligations.ResetEventZeroesAllButPc : Prop :=
  ∀ (s : State) (es : List HostEvent), s.env.events = .reset :: es →
    ∃ t, step s = .next t ∧
      (∀ r, t.reg r = 0) ∧ t.index = 0 ∧ t.pc = 0x200 ∧ t.sp = 0 ∧
      (∀ k (h : k < 16), t.stack[k] = 0) ∧ t.delay = 0 ∧ t.sound = 0 ∧
      (∀ k (h : k < 16), t.keypad[k] = false) ∧
      (∀ px py, Display.pixel t.display px py = false) ∧
      (∀ a, t.mem.read a = 0) ∧ t.opcode = 0

/-- The Load event copies the bytes verbatim from the given address upward when they fit, and otherwise
raises `OutOfBoundsAddress(LOAD)` with nothing written (R204). Refusing a sequence whole is a decision
of the spec (D26). The model's choices: the schedule is a list (assumption log 3); no Load after a Cycle
event, and the record of what the Loader has placed (log 4); a Load that raises leaves its fault in
`status`, and one that completes leaves `status` as it was, so that under HALT a later Load does not lift
the fault of an earlier event (logs 2, 7). -/
def Obligations.LoadCopiesVerbatimOrNotAtAll : Prop :=
  ∀ (s : State) (bytes : List Byte) (addr : Nat) (es : List HostEvent),
    s.env.events = .load bytes addr :: es → s.env.started = false →
    (bytes = [] ∨ addr + bytes.length ≤ 4096 → ∃ t, step s = .next t ∧
      (∀ i (h : i < bytes.length), t.mem.read (addr + i) = bytes[i]) ∧
      (∀ a, a < addr ∨ addr + bytes.length ≤ a → t.mem.read a = s.mem.read a) ∧
      t.env = { s.env with
        events := es, fontLoaded := t.env.fontLoaded, programLoaded := t.env.programLoaded } ∧
      (t.env.fontLoaded = true ↔ s.env.fontLoaded = true ∨
        (addr = s.env.config.fontBase.val ∧ bytes = s.env.config.fontSet.toList)) ∧
      (t.env.programLoaded = true ↔ s.env.programLoaded = true ∨ addr = 0x200) ∧
      RegsUnchanged [] s t ∧ Unchanged [.memory, .env] s t) ∧
    (bytes ≠ [] → 4096 < addr + bytes.length → ∃ t, step s = .next t ∧
      t.status = .fault (.outOfBoundsAddress .load (max addr 4096)) ∧
      t.env = { s.env with events := es } ∧
      RegsUnchanged [] s t ∧ Unchanged [.status, .env] s t)

/-- The boot order (R203, R205): Reset, the font at its base, the program of at most 3584 bytes at
0x200. Then memory holds the font, the program and 0x00 everywhere else, `pc` is 0x200, and the next
step is the first Cycle event, which the host may issue. The model's choices: the status, OK after Reset
and left so by the two Loads (assumption log 2); the schedule, in which an empty list means a Cycle event
next (log 3); the record that the Loader has finished (log 4); and that Reset keeps the parameters and the
events still listed (log 5). -/
def Obligations.BootPlacesFontAndProgram : Prop :=
  ∀ (s : State) (program : List Byte), program.length ≤ 3584 →
    s.env.events = bootEvents s.env.config program →
    ∃ t, Host.Core.run ⟨State, Fault, Refusal, step, State.reset⟩ 3 s = .next t ∧
      (∀ i (h : i < 80), t.mem.read (s.env.config.fontBase.val + i) = s.env.config.fontSet[i]) ∧
      (∀ i (h : i < program.length), t.mem.read (0x200 + i) = program[i]) ∧
      (∀ a, a < s.env.config.fontBase.val ∨
        (s.env.config.fontBase.val + 80 ≤ a ∧ a < 0x200) ∨ 0x200 + program.length ≤ a →
        t.mem.read a = 0) ∧
      t.pc = 0x200 ∧ t.status = .ok ∧ t.env.events = [] ∧ t.env.config = s.env.config ∧ MayCycle t

/-- The machine has no move for a Load after the first Cycle event (R161, R163): the step refuses it by
name, and a Cycle event, whatever else it does, marks that it has been issued. The mark and the refusal
are the model's form of having no move (assumption log 4). -/
def Obligations.NoLoadAfterTheFirstCycle : Prop :=
  (∀ (s : State) (bytes : List Byte) (addr : Nat) (es : List HostEvent),
    s.env.events = .load bytes addr :: es → s.env.started = true →
    step s = .refused .loadAfterFirstCycle) ∧
  (∀ s r t : State, CycleDue s r → step s = .next t → t.env.started = true)

/-! ## Rules about the whole machine -/

/-- An instruction writes no general register beside those the matrix gives it (R12, R11). -/
def Obligations.RegistersWrittenAreThoseOfTheMatrix : Prop :=
  ∀ (i : Instr) (s t : State) (r : RegIdx), exec i s = .next t → i.writesReg r = false →
    t.reg r = s.reg r

/-- An instruction depends on no general register beside those the matrix says it reads (R12): two runs
that differ in one other register agree in everything else, and in that register too, unless neither
run wrote it. All else of the two states is equal, the random sequence and the count of draws too, so
that a `Cxkk` takes the same byte in both (assumption log 1). -/
def Obligations.RegistersReadAreThoseOfTheMatrix : Prop :=
  ∀ (i : Instr) (s : State) (r : RegIdx) (b : Byte), i.readsReg r = false →
    ∃ t t', exec i s = .next t ∧ exec i (s.setReg r b) = .next t' ∧
      RegsUnchanged [r] t t' ∧ Unchanged [] t t' ∧
      (t'.reg r = t.reg r ∨ (t.reg r = s.reg r ∧ t'.reg r = b))

/-- `VF` written as a flag is the byte 0x00 or 0x01, never another value (R112): after each of the five
`8xy_` flag instructions, and after a `Dxyn` that does not fault. -/
def Obligations.FlagIsZeroOrOne : Prop :=
  ∀ (i : Instr) (s t : State) (x y : RegIdx) (n : BitVec 4), exec i s = .next t →
    i ∈ [.addReg x y, .subReg x y, .shr x y, .subnReg x y, .shl x y, .drw x y n] → t.notFaulted →
    t.reg 15 = 0 ∨ t.reg 15 = 1

/-- Only `Fx33` and `Fx55` write memory among the instructions, and only at addresses inside memory,
from `I` upward (R45, R48). -/
def Obligations.OnlyStoresWriteMemory : Prop :=
  ∀ (i : Instr) (s t : State) (a : Nat), exec i s = .next t → t.mem.read a ≠ s.mem.read a →
    a ≤ 4095 ∧ s.index.toNat ≤ a ∧
      ((∃ x, i = .ldB x ∧ a ≤ s.index.toNat + 2) ∨
        ∃ x : RegIdx, i = .storeRegs x ∧ a ≤ s.index.toNat + x.toNat)

/-- Only `Dxyn` and `00E0` write the screen (R24, R189). -/
def Obligations.OnlyDrawAndClearWriteTheScreen : Prop :=
  ∀ (i : Instr) (s t : State) (px : Fin 64) (py : Fin 32), exec i s = .next t →
    Display.pixel t.display px py ≠ Display.pixel s.display px py →
    i = .cls ∨ ∃ x y n, i = .drw x y n

/-- Who writes the rest of the state (the table of R25, R13 to R20): `I` by `Annn`, `Fx1E`, `Fx29`; the
stack by `2nnn`; `sp` by `2nnn` and `00EE`; `DT` by `Fx15`; `ST` by `Fx18`; `pc` by the skips, the
jumps, the call, the return and `Fx0A`; the keypad, `current_opcode` and the host's side by none. That the
host's side, its schedule and the record of what it has done, is a field of the state is the model's choice
(assumption logs 3, 4). -/
def Obligations.SystemStateIsWrittenByItsWriters : Prop :=
  ∀ (i : Instr) (s t : State), exec i s = .next t →
    (t.index ≠ s.index → (∃ nnn, i = .ldI nnn) ∨ (∃ x, i = .addI x) ∨ ∃ x, i = .ldF x) ∧
    (t.stack ≠ s.stack → ∃ nnn, i = .call nnn) ∧
    (t.sp ≠ s.sp → i = .ret ∨ ∃ nnn, i = .call nnn) ∧
    (t.delay ≠ s.delay → ∃ x, i = .ldDtVx x) ∧
    (t.sound ≠ s.sound → ∃ x, i = .ldStVx x) ∧
    (t.pc ≠ s.pc → i = .ret ∨ (∃ nnn, i = .jp nnn ∨ i = .call nnn ∨ i = .jpV0 nnn) ∨
      (∃ x kk, i = .seImm x kk ∨ i = .sneImm x kk) ∨ (∃ x y, i = .seReg x y ∨ i = .sneReg x y) ∨
      ∃ x, i = .skp x ∨ i = .sknp x ∨ i = .ldVxK x) ∧
    t.keypad = s.keypad ∧ t.opcode = s.opcode ∧ t.env = s.env

/-- During a Cycle event the core leaves what is the host's: the keypad, the parameters and the events
still to come (R20, R27); and no event of any kind changes the parameters (R5). The model's choices: the
events still to come stand as a list (assumption log 3, DESIGN CHOICE), and Reset keeps the parameters, the
number of the random sequence among them (logs 1, 5, DESIGN CHOICE). -/
def Obligations.CycleLeavesTheHostsSide : Prop :=
  (∀ s r t : State, CycleDue s r → step s = .next t →
    t.keypad = s.keypad ∧ t.env.events = r.env.events) ∧
  (∀ s t : State, step s = .next t → t.env.config = s.env.config)

/-- The invariant of R29 and R15 is kept by every event: memory stays in its canonical form inside the
4096 bytes, `pc` stays at most 0x10FE, and every live stack entry is in 2 to 0x1000. The canonical form of
memory is the model's, not R29's (assumption log 8, DESIGN CHOICE). -/
def Obligations.InvariantIsKeptByEveryStep : Prop :=
  ∀ s t : State, s.Inv → step s = .next t → t.Inv

/-- The invariant holds at reset: `pc` and the live stack entries as R29 says, and memory in its canonical
form, which is the model's, not R29's (assumption log 8, DESIGN CHOICE). -/
def Obligations.InvariantHoldsAtReset : Prop :=
  State.reset.Inv

/-- The machine has no move for a Cycle event before the Loader has finished (R163, R203): while the run
goes on and the font or the program has not been placed, a due Cycle event is refused by name; a Cycle
event that answers a next state had both placed; and a Reset event asks for both anew. The record and the
refusal are the model's form of having no move (assumption log 4), and so is what Reset does to the record
(log 5). -/
def Obligations.NoCycleBeforeTheLoaderHasFinished : Prop :=
  (∀ s r : State, CycleDue s r → RunGoesOn s →
    ¬ (s.env.fontLoaded = true ∧ s.env.programLoaded = true) →
    step s = .refused .cycleBeforeLoaderFinished) ∧
  (∀ s r t : State, CycleDue s r → step s = .next t →
    s.env.fontLoaded = true ∧ s.env.programLoaded = true) ∧
  (∀ (s t : State) (es : List HostEvent), s.env.events = .reset :: es → step s = .next t →
    t.env.fontLoaded = false ∧ t.env.programLoaded = false)
end

