-- ==== Sys2Proof/Laws/Decode.lean ====
section
/-! SUPPORT. The fields of a word as numbers, the fields of a packed word, and the fields of a masked
word (30_encoding.md R61, R66). -/

namespace Sys2Proof

/-! ### Fields as numbers -/

theorem classOf_toNat (w : Word) : (classOf w).toNat = w.toNat / 4096 := by
  have := w.isLt
  simp only [classOf, BitVec.extractLsb'_toNat, Nat.shiftRight_eq_div_pow]
  omega

theorem fieldX_toNat (w : Word) : (fieldX w).toNat = w.toNat / 256 % 16 := by
  simp only [fieldX, BitVec.extractLsb'_toNat, Nat.shiftRight_eq_div_pow]

theorem fieldY_toNat (w : Word) : (fieldY w).toNat = w.toNat / 16 % 16 := by
  simp only [fieldY, BitVec.extractLsb'_toNat, Nat.shiftRight_eq_div_pow]

theorem fieldN_toNat (w : Word) : (fieldN w).toNat = w.toNat % 16 := by
  simp [fieldN, BitVec.extractLsb'_toNat]

theorem fieldKK_toNat (w : Word) : (fieldKK w).toNat = w.toNat % 256 := by
  simp [fieldKK, BitVec.extractLsb'_toNat]

theorem fieldNNN_toNat (w : Word) : (fieldNNN w).toNat = w.toNat % 4096 := by
  simp [fieldNNN, BitVec.extractLsb'_toNat]

/-! ### Packed words -/

theorem packNibbles_toNat (c x y n : BitVec 4) :
    (packNibbles c x y n).toNat = c.toNat * 4096 + x.toNat * 256 + y.toNat * 16 + n.toNat := by
  have := c.isLt; have := x.isLt; have := y.isLt; have := n.isLt
  simp only [packNibbles, BitVec.toNat_ofNat]
  omega

theorem packXKK_toNat (c x : BitVec 4) (kk : Byte) :
    (packXKK c x kk).toNat = c.toNat * 4096 + x.toNat * 256 + kk.toNat := by
  have := c.isLt; have := x.isLt; have := kk.isLt
  simp only [packXKK, BitVec.toNat_ofNat]
  omega

theorem packNNN_toNat (c : BitVec 4) (nnn : Addr) :
    (packNNN c nnn).toNat = c.toNat * 4096 + nnn.toNat := by
  have := c.isLt; have := nnn.isLt
  simp only [packNNN, BitVec.toNat_ofNat]
  omega

@[simp] theorem classOf_packNibbles (c x y n : BitVec 4) : classOf (packNibbles c x y n) = c := by
  have := c.isLt; have := x.isLt; have := y.isLt; have := n.isLt
  apply BitVec.eq_of_toNat_eq; rw [classOf_toNat, packNibbles_toNat]; omega

@[simp] theorem fieldX_packNibbles (c x y n : BitVec 4) : fieldX (packNibbles c x y n) = x := by
  have := c.isLt; have := x.isLt; have := y.isLt; have := n.isLt
  apply BitVec.eq_of_toNat_eq; rw [fieldX_toNat, packNibbles_toNat]; omega

@[simp] theorem fieldY_packNibbles (c x y n : BitVec 4) : fieldY (packNibbles c x y n) = y := by
  have := c.isLt; have := x.isLt; have := y.isLt; have := n.isLt
  apply BitVec.eq_of_toNat_eq; rw [fieldY_toNat, packNibbles_toNat]; omega

@[simp] theorem fieldN_packNibbles (c x y n : BitVec 4) : fieldN (packNibbles c x y n) = n := by
  have := c.isLt; have := x.isLt; have := y.isLt; have := n.isLt
  apply BitVec.eq_of_toNat_eq; rw [fieldN_toNat, packNibbles_toNat]; omega

@[simp] theorem classOf_packXKK (c x : BitVec 4) (kk : Byte) : classOf (packXKK c x kk) = c := by
  have := c.isLt; have := x.isLt; have := kk.isLt
  apply BitVec.eq_of_toNat_eq; rw [classOf_toNat, packXKK_toNat]; omega

@[simp] theorem fieldX_packXKK (c x : BitVec 4) (kk : Byte) : fieldX (packXKK c x kk) = x := by
  have := c.isLt; have := x.isLt; have := kk.isLt
  apply BitVec.eq_of_toNat_eq; rw [fieldX_toNat, packXKK_toNat]; omega

@[simp] theorem fieldKK_packXKK (c x : BitVec 4) (kk : Byte) : fieldKK (packXKK c x kk) = kk := by
  have := c.isLt; have := x.isLt; have := kk.isLt
  apply BitVec.eq_of_toNat_eq; rw [fieldKK_toNat, packXKK_toNat]; omega

@[simp] theorem classOf_packNNN (c : BitVec 4) (nnn : Addr) : classOf (packNNN c nnn) = c := by
  have := c.isLt; have := nnn.isLt
  apply BitVec.eq_of_toNat_eq; rw [classOf_toNat, packNNN_toNat]; omega

@[simp] theorem fieldNNN_packNNN (c : BitVec 4) (nnn : Addr) : fieldNNN (packNNN c nnn) = nnn := by
  have := c.isLt; have := nnn.isLt
  apply BitVec.eq_of_toNat_eq; rw [fieldNNN_toNat, packNNN_toNat]; omega

/-! ### Masked words -/

theorem and_15 (x : BitVec 4) : x &&& 15#4 = x := BitVec.and_allOnes

theorem and_255 (x : Byte) : x &&& 255#8 = x := BitVec.and_allOnes

theorem classOf_and (w m : Word) : classOf (w &&& m) = classOf w &&& classOf m :=
  BitVec.extractLsb'_and ..

theorem fieldN_and (w m : Word) : fieldN (w &&& m) = fieldN w &&& fieldN m :=
  BitVec.extractLsb'_and ..

theorem fieldKK_and (w m : Word) : fieldKK (w &&& m) = fieldKK w &&& fieldKK m :=
  BitVec.extractLsb'_and ..

/-- A word is its four nibbles. -/
theorem packNibbles_fields (w : Word) :
    packNibbles (classOf w) (fieldX w) (fieldY w) (fieldN w) = w := by
  have := w.isLt
  apply BitVec.eq_of_toNat_eq
  rw [packNibbles_toNat, classOf_toNat, fieldX_toNat, fieldY_toNat, fieldN_toNat]; omega

/-- A word is its class, its `x` and its bottom byte. -/
theorem packXKK_fields (w : Word) : packXKK (classOf w) (fieldX w) (fieldKK w) = w := by
  have := w.isLt
  apply BitVec.eq_of_toNat_eq
  rw [packXKK_toNat, classOf_toNat, fieldX_toNat, fieldKK_toNat]; omega

/-- A word is its class and its address field. -/
theorem packNNN_fields (w : Word) : packNNN (classOf w) (fieldNNN w) = w := by
  have := w.isLt
  apply BitVec.eq_of_toNat_eq
  rw [packNNN_toNat, classOf_toNat, fieldNNN_toNat]; omega

/-- A word meets the mask of a class row exactly when it has that class (R64). -/
theorem and_F000_eq_iff (w : Word) (c : BitVec 4) :
    w &&& 0xF000 = packNibbles c 0 0 0 ↔ classOf w = c := by
  have hw : w &&& 0xF000 = packNibbles (classOf w) 0 0 0 := by
    rw [← packNibbles_fields (w &&& 0xF000)]
    simp only [classOf_and, fieldX, fieldY, fieldN, BitVec.extractLsb'_and]
    congr 1 <;> simp [classOf, and_15]
  rw [hw]
  exact ⟨fun h => by simpa using congrArg classOf h, fun h => by rw [h]⟩

/-- A word meets the mask of a class and bottom-byte row exactly when it has both (R65). -/
theorem and_F0FF_eq_iff (w : Word) (c : BitVec 4) (kk : Byte) :
    w &&& 0xF0FF = packXKK c 0 kk ↔ classOf w = c ∧ fieldKK w = kk := by
  have hw : w &&& 0xF0FF = packXKK (classOf w) 0 (fieldKK w) := by
    rw [← packXKK_fields (w &&& 0xF0FF)]
    simp only [classOf_and, fieldKK_and, fieldX, BitVec.extractLsb'_and]
    congr 1 <;> simp [classOf, fieldKK, and_15, and_255]
  rw [hw]
  exact ⟨fun h => ⟨by simpa using congrArg classOf h, by simpa using congrArg fieldKK h⟩,
    fun h => by rw [h.1, h.2]⟩

/-- A word meets the mask of a class 8 row exactly when it has the class and the bottom nibble (R65). -/
theorem and_F00F_eq_iff (w : Word) (c n : BitVec 4) :
    w &&& 0xF00F = packNibbles c 0 0 n ↔ classOf w = c ∧ fieldN w = n := by
  have hw : w &&& 0xF00F = packNibbles (classOf w) 0 0 (fieldN w) := by
    rw [← packNibbles_fields (w &&& 0xF00F)]
    simp only [classOf_and, fieldN_and, fieldX, fieldY, BitVec.extractLsb'_and]
    congr 1 <;> simp [classOf, fieldN, and_15]
  rw [hw]
  exact ⟨fun h => ⟨by simpa using congrArg classOf h, by simpa using congrArg fieldN h⟩,
    fun h => by rw [h.1, h.2]⟩

/-- A whole mask changes nothing. -/
theorem and_FFFF (w : Word) : w &&& 0xFFFF = w := BitVec.and_allOnes

/-- The mask of classes 5 and 9 clears the low nibble (R68). -/
theorem and_FFF0 (w : Word) :
    w &&& 0xFFF0 = packNibbles (classOf w) (fieldX w) (fieldY w) 0 := by
  rw [← packNibbles_fields (w &&& 0xFFF0)]
  simp only [classOf, fieldX, fieldY, fieldN, BitVec.extractLsb'_and]
  congr 1 <;> simp [and_15]

/-- The bits that select a row are among the examined ones (R66, R68). -/
theorem examinedMask_and_rowMask (i : Instr) : examinedMask i &&& rowMask i = rowMask i := by
  cases i <;> (simp only [examinedMask, rowMask]; decide)

/-! ### Rows -/

open Machine in
/-- A class row is decoded when every word of the class is (R64). -/
theorem encodes_F000 (c : BitVec 4) (f : Word → Instr)
    (h : ∀ w, classOf w = c → decodeWord w = .ok (f w)) :
    Encodes 0xF000 (packNibbles c 0 0 0) f :=
  fun w hw => h w ((and_F000_eq_iff w c).mp hw)

open Machine in
/-- A class and bottom-byte row is decoded when every word with both is (R65). -/
theorem encodes_F0FF (c : BitVec 4) (kk : Byte) (f : Word → Instr)
    (h : ∀ w, classOf w = c → fieldKK w = kk → decodeWord w = .ok (f w)) :
    Encodes 0xF0FF (packXKK c 0 kk) f :=
  fun w hw => h w ((and_F0FF_eq_iff w c kk).mp hw).1 ((and_F0FF_eq_iff w c kk).mp hw).2

open Machine in
/-- A class 8 row is decoded when every word with the class and the bottom nibble is (R65). -/
theorem encodes_F00F (c n : BitVec 4) (f : Word → Instr)
    (h : ∀ w, classOf w = c → fieldN w = n → decodeWord w = .ok (f w)) :
    Encodes 0xF00F (packNibbles c 0 0 n) f :=
  fun w hw => h w ((and_F00F_eq_iff w c n).mp hw).1 ((and_F00F_eq_iff w c n).mp hw).2

/-! ### Bytes -/

/-- The word of the two bytes of a word is that word (R46). -/
theorem wordOfBytes_bytesOfWord (w : Word) :
    wordOfBytes (w.extractLsb' 8 8) (w.extractLsb' 0 8) = w := by
  have := w.isLt
  apply BitVec.eq_of_toNat_eq
  simp only [wordOfBytes, BitVec.toNat_ofNat, BitVec.extractLsb'_toNat, Nat.shiftRight_eq_div_pow]
  omega

end Sys2Proof
end

