-- ==== Sys2Proof/Laws/Memory.lean ====
section
/-! SUPPORT. The laws of memory (20_memory.md R43 to R50): a read after a write, and that every
memory operation keeps the canonical form. -/

namespace Sys2Proof.Machine

@[simp] theorem Memory.read_nil (k : Nat) : Memory.read [] k = 0 := rfl

/-- An address no cell names reads zero. -/
theorem Memory.read_eq_zero_of_not_mem {m : Memory} {k : Nat} (h : ∀ c ∈ m, c.1 ≠ k) :
    m.read k = 0 := by
  induction m with
  | nil => rfl
  | cons c m ih =>
    obtain ⟨hc, hm⟩ := List.forall_mem_cons.mp h
    rw [Memory.read, if_neg (Ne.symm hc), ih hm]

/-- Taking the cells of one address out leaves every other address. -/
theorem Memory.read_filter_ne {m : Memory} {j k : Nat} (h : j ≠ k) :
    Memory.read (m.filter (fun c => c.1 != k)) j = m.read j := by
  induction m with
  | nil => rfl
  | cons c m ih =>
    obtain ⟨a, b⟩ := c
    by_cases ha : a = k
    · have hja : j ≠ a := fun e => h (e.trans ha)
      simp [ha, Memory.read, ih, h]
    · simp [ha, Memory.read, ih]

/-- Reading after a cell was put in where no cell had its address. -/
theorem Memory.read_insertCell {m : Memory} {k : Nat} {v : Byte} (h : ∀ c ∈ m, c.1 ≠ k) (j : Nat) :
    (Memory.insertCell k v m).read j = if j = k then v else m.read j := by
  induction m with
  | nil => simp [Memory.insertCell, Memory.read]
  | cons c m ih =>
    obtain ⟨a, b⟩ := c
    obtain ⟨ha, hm⟩ := List.forall_mem_cons.mp h
    by_cases hk : k < a
    · simp [Memory.insertCell, hk, Memory.read]
    · by_cases hj : j = a
      · simp [Memory.insertCell, hk, Memory.read, hj, ha]
      · simp [Memory.insertCell, hk, Memory.read, hj, ih hm]

/-- A read after a write: the written byte at its address, what was there before at every other
(R45, R48, R50). -/
theorem Memory.read_write (m : Memory) (k : Nat) (v : Byte) (j : Nat) :
    (m.write k v).read j = if j = k then v else m.read j := by
  have hne : ∀ c ∈ m.filter (fun c => c.1 != k), c.1 ≠ k := by simp
  by_cases hv : v = 0
  · by_cases hj : j = k
    · simp only [Memory.write, hv, if_true, hj]
      exact Memory.read_eq_zero_of_not_mem hne
    · simp only [Memory.write, hv, if_true, if_neg hj, Memory.read_filter_ne hj]
  · simp only [Memory.write, hv, if_false, Memory.read_insertCell hne]
    by_cases hj : j = k
    · simp [hj]
    · simp only [if_neg hj, Memory.read_filter_ne hj]

/-- A read after a list of bytes was stored from `a` upward (R48, R204). -/
theorem Memory.read_writeBytes (m : Memory) (a : Nat) (bs : List Byte) (j : Nat) :
    (m.writeBytes a bs).read j =
      if a ≤ j then (bs[j - a]?).getD (m.read j) else m.read j := by
  induction bs generalizing m a with
  | nil => simp [Memory.writeBytes]
  | cons b bs ih =>
    rw [Memory.writeBytes, ih, Memory.read_write]
    rcases Nat.lt_trichotomy j a with h | rfl | h
    · simp [Nat.not_le.mpr h, Nat.not_le.mpr (Nat.lt_succ_of_lt h), Nat.ne_of_lt h]
    · simp
    · have h1 : j - a = (j - (a + 1)) + 1 := by omega
      simp [h, Nat.le_of_lt h, Nat.ne_of_gt h, h1]

/-- The bytes read are as many as asked for. -/
@[simp] theorem Memory.length_readBytes (m : Memory) (a n : Nat) : (m.readBytes a n).length = n := by
  induction n generalizing a with
  | zero => rfl
  | succ n ih => simp [Memory.readBytes, ih]

/-- Byte `i` of the bytes read is the byte at `a + i` (R48). -/
theorem Memory.getElem?_readBytes (m : Memory) (a n i : Nat) :
    (m.readBytes a n)[i]? = if i < n then some (m.read (a + i)) else none := by
  induction n generalizing a i with
  | zero => simp [Memory.readBytes]
  | succ n ih =>
    cases i with
    | zero => simp [Memory.readBytes]
    | succ i => simp [Memory.readBytes, ih, Nat.add_assoc, Nat.add_comm 1]

/-! ### The canonical form -/

theorem Memory.mem_insertCell {k : Nat} {v : Byte} {m : Memory} {c : Host.Cell} :
    c ∈ Memory.insertCell k v m ↔ c = (k, v) ∨ c ∈ m := by
  induction m with
  | nil => simp [Memory.insertCell]
  | cons d m ih =>
    by_cases hk : k < d.1
    · simp [Memory.insertCell, hk]
    · simp [Memory.insertCell, hk, ih, or_left_comm]

theorem Memory.pairwise_insertCell {k : Nat} {v : Byte} {m : Memory}
    (hm : m.Pairwise (fun c d => c.1 < d.1)) (hk : ∀ c ∈ m, c.1 ≠ k) :
    (Memory.insertCell k v m).Pairwise (fun c d => c.1 < d.1) := by
  induction m with
  | nil => simp [Memory.insertCell]
  | cons d m ih =>
    obtain ⟨hd, hrest⟩ := List.pairwise_cons.mp hm
    obtain ⟨hdk, hmk⟩ := List.forall_mem_cons.mp hk
    by_cases h : k < d.1
    · simp only [Memory.insertCell, h, if_true]
      refine List.pairwise_cons.mpr ⟨?_, hm⟩
      intro c hc
      rcases List.mem_cons.mp hc with rfl | hc
      · exact h
      · exact Nat.lt_trans h (hd c hc)
    · simp only [Memory.insertCell, h, if_false]
      refine List.pairwise_cons.mpr ⟨?_, ih hrest hmk⟩
      intro c hc
      rcases Memory.mem_insertCell.mp hc with rfl | hc
      · exact Nat.lt_of_le_of_ne (Nat.not_lt.mp h) hdk
      · exact hd c hc

/-- A write inside the address space keeps the canonical form. -/
theorem Memory.wf_write {m : Memory} {k : Nat} {v : Byte} (hm : Memory.wf m) (hk : k < 4096) :
    Memory.wf (m.write k v) := by
  obtain ⟨hp, hc⟩ := hm
  have hp' : (m.filter (fun c => c.1 != k)).Pairwise (fun c d => c.1 < d.1) := hp.filter _
  have hc' : ∀ c ∈ m.filter (fun c => c.1 != k), c.1 < 4096 ∧ c.2 ≠ 0 :=
    fun c h => hc c (List.mem_of_mem_filter h)
  by_cases hv : v = 0
  · simpa only [Memory.write, hv, if_true] using And.intro hp' hc'
  · simp only [Memory.write, hv, if_false]
    refine ⟨Memory.pairwise_insertCell hp' (by simp), ?_⟩
    intro c h
    rcases Memory.mem_insertCell.mp h with rfl | h
    · exact ⟨hk, hv⟩
    · exact hc' c h

/-- Storing bytes inside the address space keeps the canonical form. -/
theorem Memory.wf_writeBytes {m : Memory} {a : Nat} {bs : List Byte} (hm : Memory.wf m)
    (ha : bs = [] ∨ a + bs.length ≤ 4096) : Memory.wf (m.writeBytes a bs) := by
  induction bs generalizing m a with
  | nil => exact hm
  | cons b bs ih =>
    have hlen : a + (bs.length + 1) ≤ 4096 := by simpa using ha
    exact ih (Memory.wf_write hm (by omega)) (.inr (by omega))

/-- Memory at reset is in the canonical form. -/
theorem Memory.wf_reset : Memory.wf State.reset.mem :=
  ⟨List.Pairwise.nil, fun _ h => nomatch h⟩

end Sys2Proof.Machine
end

