-- ==== Sys2Proof/Laws/State.lean ====
section
/-! SUPPORT. One lemma for each field under each named update of the state, so that no later proof
unfolds an update, and the general registers under every update. -/

namespace Sys2Proof.Machine

/-! ### `State.setReg` -/

@[simp] theorem State.setReg_v (s : State) (x : RegIdx) (b : Byte) :
    (s.setReg x b).v = s.v.set x.toNat b := rfl
@[simp] theorem State.setReg_index (s : State) (x : RegIdx) (b : Byte) :
    (s.setReg x b).index = s.index := rfl
@[simp] theorem State.setReg_pc (s : State) (x : RegIdx) (b : Byte) :
    (s.setReg x b).pc = s.pc := rfl
@[simp] theorem State.setReg_sp (s : State) (x : RegIdx) (b : Byte) :
    (s.setReg x b).sp = s.sp := rfl
@[simp] theorem State.setReg_stack (s : State) (x : RegIdx) (b : Byte) :
    (s.setReg x b).stack = s.stack := rfl
@[simp] theorem State.setReg_delay (s : State) (x : RegIdx) (b : Byte) :
    (s.setReg x b).delay = s.delay := rfl
@[simp] theorem State.setReg_sound (s : State) (x : RegIdx) (b : Byte) :
    (s.setReg x b).sound = s.sound := rfl
@[simp] theorem State.setReg_keypad (s : State) (x : RegIdx) (b : Byte) :
    (s.setReg x b).keypad = s.keypad := rfl
@[simp] theorem State.setReg_mem (s : State) (x : RegIdx) (b : Byte) :
    (s.setReg x b).mem = s.mem := rfl
@[simp] theorem State.setReg_opcode (s : State) (x : RegIdx) (b : Byte) :
    (s.setReg x b).opcode = s.opcode := rfl
@[simp] theorem State.setReg_display (s : State) (x : RegIdx) (b : Byte) :
    (s.setReg x b).display = s.display := rfl
@[simp] theorem State.setReg_status (s : State) (x : RegIdx) (b : Byte) :
    (s.setReg x b).status = s.status := rfl
@[simp] theorem State.setReg_draws (s : State) (x : RegIdx) (b : Byte) :
    (s.setReg x b).draws = s.draws := rfl
@[simp] theorem State.setReg_env (s : State) (x : RegIdx) (b : Byte) :
    (s.setReg x b).env = s.env := rfl

/-! ### `State.setIndex` -/

@[simp] theorem State.setIndex_v (s : State) (w : Word) : (s.setIndex w).v = s.v := rfl
@[simp] theorem State.setIndex_index (s : State) (w : Word) : (s.setIndex w).index = w := rfl
@[simp] theorem State.setIndex_pc (s : State) (w : Word) : (s.setIndex w).pc = s.pc := rfl
@[simp] theorem State.setIndex_sp (s : State) (w : Word) : (s.setIndex w).sp = s.sp := rfl
@[simp] theorem State.setIndex_stack (s : State) (w : Word) : (s.setIndex w).stack = s.stack := rfl
@[simp] theorem State.setIndex_delay (s : State) (w : Word) : (s.setIndex w).delay = s.delay := rfl
@[simp] theorem State.setIndex_sound (s : State) (w : Word) : (s.setIndex w).sound = s.sound := rfl
@[simp] theorem State.setIndex_keypad (s : State) (w : Word) :
    (s.setIndex w).keypad = s.keypad := rfl
@[simp] theorem State.setIndex_mem (s : State) (w : Word) : (s.setIndex w).mem = s.mem := rfl
@[simp] theorem State.setIndex_opcode (s : State) (w : Word) :
    (s.setIndex w).opcode = s.opcode := rfl
@[simp] theorem State.setIndex_display (s : State) (w : Word) :
    (s.setIndex w).display = s.display := rfl
@[simp] theorem State.setIndex_status (s : State) (w : Word) :
    (s.setIndex w).status = s.status := rfl
@[simp] theorem State.setIndex_draws (s : State) (w : Word) : (s.setIndex w).draws = s.draws := rfl
@[simp] theorem State.setIndex_env (s : State) (w : Word) : (s.setIndex w).env = s.env := rfl
@[simp] theorem State.setIndex_reg (s : State) (w : Word) (r : RegIdx) :
    (s.setIndex w).reg r = s.reg r := rfl

/-! ### `State.setPc` -/

@[simp] theorem State.setPc_v (s : State) (w : Word) : (s.setPc w).v = s.v := rfl
@[simp] theorem State.setPc_index (s : State) (w : Word) : (s.setPc w).index = s.index := rfl
@[simp] theorem State.setPc_pc (s : State) (w : Word) : (s.setPc w).pc = w := rfl
@[simp] theorem State.setPc_sp (s : State) (w : Word) : (s.setPc w).sp = s.sp := rfl
@[simp] theorem State.setPc_stack (s : State) (w : Word) : (s.setPc w).stack = s.stack := rfl
@[simp] theorem State.setPc_delay (s : State) (w : Word) : (s.setPc w).delay = s.delay := rfl
@[simp] theorem State.setPc_sound (s : State) (w : Word) : (s.setPc w).sound = s.sound := rfl
@[simp] theorem State.setPc_keypad (s : State) (w : Word) : (s.setPc w).keypad = s.keypad := rfl
@[simp] theorem State.setPc_mem (s : State) (w : Word) : (s.setPc w).mem = s.mem := rfl
@[simp] theorem State.setPc_opcode (s : State) (w : Word) : (s.setPc w).opcode = s.opcode := rfl
@[simp] theorem State.setPc_display (s : State) (w : Word) : (s.setPc w).display = s.display := rfl
@[simp] theorem State.setPc_status (s : State) (w : Word) : (s.setPc w).status = s.status := rfl
@[simp] theorem State.setPc_draws (s : State) (w : Word) : (s.setPc w).draws = s.draws := rfl
@[simp] theorem State.setPc_env (s : State) (w : Word) : (s.setPc w).env = s.env := rfl
@[simp] theorem State.setPc_reg (s : State) (w : Word) (r : RegIdx) :
    (s.setPc w).reg r = s.reg r := rfl

/-! ### `State.setDelay` -/

@[simp] theorem State.setDelay_v (s : State) (b : Byte) : (s.setDelay b).v = s.v := rfl
@[simp] theorem State.setDelay_index (s : State) (b : Byte) : (s.setDelay b).index = s.index := rfl
@[simp] theorem State.setDelay_pc (s : State) (b : Byte) : (s.setDelay b).pc = s.pc := rfl
@[simp] theorem State.setDelay_sp (s : State) (b : Byte) : (s.setDelay b).sp = s.sp := rfl
@[simp] theorem State.setDelay_stack (s : State) (b : Byte) : (s.setDelay b).stack = s.stack := rfl
@[simp] theorem State.setDelay_delay (s : State) (b : Byte) : (s.setDelay b).delay = b := rfl
@[simp] theorem State.setDelay_sound (s : State) (b : Byte) : (s.setDelay b).sound = s.sound := rfl
@[simp] theorem State.setDelay_keypad (s : State) (b : Byte) :
    (s.setDelay b).keypad = s.keypad := rfl
@[simp] theorem State.setDelay_mem (s : State) (b : Byte) : (s.setDelay b).mem = s.mem := rfl
@[simp] theorem State.setDelay_opcode (s : State) (b : Byte) :
    (s.setDelay b).opcode = s.opcode := rfl
@[simp] theorem State.setDelay_display (s : State) (b : Byte) :
    (s.setDelay b).display = s.display := rfl
@[simp] theorem State.setDelay_status (s : State) (b : Byte) :
    (s.setDelay b).status = s.status := rfl
@[simp] theorem State.setDelay_draws (s : State) (b : Byte) : (s.setDelay b).draws = s.draws := rfl
@[simp] theorem State.setDelay_env (s : State) (b : Byte) : (s.setDelay b).env = s.env := rfl
@[simp] theorem State.setDelay_reg (s : State) (b : Byte) (r : RegIdx) :
    (s.setDelay b).reg r = s.reg r := rfl

/-! ### `State.setSound` -/

@[simp] theorem State.setSound_v (s : State) (b : Byte) : (s.setSound b).v = s.v := rfl
@[simp] theorem State.setSound_index (s : State) (b : Byte) : (s.setSound b).index = s.index := rfl
@[simp] theorem State.setSound_pc (s : State) (b : Byte) : (s.setSound b).pc = s.pc := rfl
@[simp] theorem State.setSound_sp (s : State) (b : Byte) : (s.setSound b).sp = s.sp := rfl
@[simp] theorem State.setSound_stack (s : State) (b : Byte) : (s.setSound b).stack = s.stack := rfl
@[simp] theorem State.setSound_delay (s : State) (b : Byte) : (s.setSound b).delay = s.delay := rfl
@[simp] theorem State.setSound_sound (s : State) (b : Byte) : (s.setSound b).sound = b := rfl
@[simp] theorem State.setSound_keypad (s : State) (b : Byte) :
    (s.setSound b).keypad = s.keypad := rfl
@[simp] theorem State.setSound_mem (s : State) (b : Byte) : (s.setSound b).mem = s.mem := rfl
@[simp] theorem State.setSound_opcode (s : State) (b : Byte) :
    (s.setSound b).opcode = s.opcode := rfl
@[simp] theorem State.setSound_display (s : State) (b : Byte) :
    (s.setSound b).display = s.display := rfl
@[simp] theorem State.setSound_status (s : State) (b : Byte) :
    (s.setSound b).status = s.status := rfl
@[simp] theorem State.setSound_draws (s : State) (b : Byte) : (s.setSound b).draws = s.draws := rfl
@[simp] theorem State.setSound_env (s : State) (b : Byte) : (s.setSound b).env = s.env := rfl
@[simp] theorem State.setSound_reg (s : State) (b : Byte) (r : RegIdx) :
    (s.setSound b).reg r = s.reg r := rfl

/-! ### `State.setMem` -/

@[simp] theorem State.setMem_v (s : State) (m : Memory) : (s.setMem m).v = s.v := rfl
@[simp] theorem State.setMem_index (s : State) (m : Memory) : (s.setMem m).index = s.index := rfl
@[simp] theorem State.setMem_pc (s : State) (m : Memory) : (s.setMem m).pc = s.pc := rfl
@[simp] theorem State.setMem_sp (s : State) (m : Memory) : (s.setMem m).sp = s.sp := rfl
@[simp] theorem State.setMem_stack (s : State) (m : Memory) : (s.setMem m).stack = s.stack := rfl
@[simp] theorem State.setMem_delay (s : State) (m : Memory) : (s.setMem m).delay = s.delay := rfl
@[simp] theorem State.setMem_sound (s : State) (m : Memory) : (s.setMem m).sound = s.sound := rfl
@[simp] theorem State.setMem_keypad (s : State) (m : Memory) : (s.setMem m).keypad = s.keypad := rfl
@[simp] theorem State.setMem_mem (s : State) (m : Memory) : (s.setMem m).mem = m := rfl
@[simp] theorem State.setMem_opcode (s : State) (m : Memory) : (s.setMem m).opcode = s.opcode := rfl
@[simp] theorem State.setMem_display (s : State) (m : Memory) :
    (s.setMem m).display = s.display := rfl
@[simp] theorem State.setMem_status (s : State) (m : Memory) : (s.setMem m).status = s.status := rfl
@[simp] theorem State.setMem_draws (s : State) (m : Memory) : (s.setMem m).draws = s.draws := rfl
@[simp] theorem State.setMem_env (s : State) (m : Memory) : (s.setMem m).env = s.env := rfl
@[simp] theorem State.setMem_reg (s : State) (m : Memory) (r : RegIdx) :
    (s.setMem m).reg r = s.reg r := rfl

/-! ### `State.setDisplay` -/

@[simp] theorem State.setDisplay_v (s : State) (d : Display) : (s.setDisplay d).v = s.v := rfl
@[simp] theorem State.setDisplay_index (s : State) (d : Display) :
    (s.setDisplay d).index = s.index := rfl
@[simp] theorem State.setDisplay_pc (s : State) (d : Display) : (s.setDisplay d).pc = s.pc := rfl
@[simp] theorem State.setDisplay_sp (s : State) (d : Display) : (s.setDisplay d).sp = s.sp := rfl
@[simp] theorem State.setDisplay_stack (s : State) (d : Display) :
    (s.setDisplay d).stack = s.stack := rfl
@[simp] theorem State.setDisplay_delay (s : State) (d : Display) :
    (s.setDisplay d).delay = s.delay := rfl
@[simp] theorem State.setDisplay_sound (s : State) (d : Display) :
    (s.setDisplay d).sound = s.sound := rfl
@[simp] theorem State.setDisplay_keypad (s : State) (d : Display) :
    (s.setDisplay d).keypad = s.keypad := rfl
@[simp] theorem State.setDisplay_mem (s : State) (d : Display) : (s.setDisplay d).mem = s.mem := rfl
@[simp] theorem State.setDisplay_opcode (s : State) (d : Display) :
    (s.setDisplay d).opcode = s.opcode := rfl
@[simp] theorem State.setDisplay_display (s : State) (d : Display) :
    (s.setDisplay d).display = d := rfl
@[simp] theorem State.setDisplay_status (s : State) (d : Display) :
    (s.setDisplay d).status = s.status := rfl
@[simp] theorem State.setDisplay_draws (s : State) (d : Display) :
    (s.setDisplay d).draws = s.draws := rfl
@[simp] theorem State.setDisplay_env (s : State) (d : Display) : (s.setDisplay d).env = s.env := rfl
@[simp] theorem State.setDisplay_reg (s : State) (d : Display) (r : RegIdx) :
    (s.setDisplay d).reg r = s.reg r := rfl

/-! ### `State.setStatus` -/

@[simp] theorem State.setStatus_v (s : State) (c : Status) : (s.setStatus c).v = s.v := rfl
@[simp] theorem State.setStatus_index (s : State) (c : Status) :
    (s.setStatus c).index = s.index := rfl
@[simp] theorem State.setStatus_pc (s : State) (c : Status) : (s.setStatus c).pc = s.pc := rfl
@[simp] theorem State.setStatus_sp (s : State) (c : Status) : (s.setStatus c).sp = s.sp := rfl
@[simp] theorem State.setStatus_stack (s : State) (c : Status) :
    (s.setStatus c).stack = s.stack := rfl
@[simp] theorem State.setStatus_delay (s : State) (c : Status) :
    (s.setStatus c).delay = s.delay := rfl
@[simp] theorem State.setStatus_sound (s : State) (c : Status) :
    (s.setStatus c).sound = s.sound := rfl
@[simp] theorem State.setStatus_keypad (s : State) (c : Status) :
    (s.setStatus c).keypad = s.keypad := rfl
@[simp] theorem State.setStatus_mem (s : State) (c : Status) : (s.setStatus c).mem = s.mem := rfl
@[simp] theorem State.setStatus_opcode (s : State) (c : Status) :
    (s.setStatus c).opcode = s.opcode := rfl
@[simp] theorem State.setStatus_display (s : State) (c : Status) :
    (s.setStatus c).display = s.display := rfl
@[simp] theorem State.setStatus_status (s : State) (c : Status) : (s.setStatus c).status = c := rfl
@[simp] theorem State.setStatus_draws (s : State) (c : Status) :
    (s.setStatus c).draws = s.draws := rfl
@[simp] theorem State.setStatus_env (s : State) (c : Status) : (s.setStatus c).env = s.env := rfl
@[simp] theorem State.setStatus_reg (s : State) (c : Status) (r : RegIdx) :
    (s.setStatus c).reg r = s.reg r := rfl

/-! ### `State.fetched` -/

@[simp] theorem State.fetched_v (s : State) (w : Word) : (s.fetched w).v = s.v := rfl
@[simp] theorem State.fetched_index (s : State) (w : Word) : (s.fetched w).index = s.index := rfl
@[simp] theorem State.fetched_pc (s : State) (w : Word) : (s.fetched w).pc = s.pc + 2 := rfl
@[simp] theorem State.fetched_sp (s : State) (w : Word) : (s.fetched w).sp = s.sp := rfl
@[simp] theorem State.fetched_stack (s : State) (w : Word) : (s.fetched w).stack = s.stack := rfl
@[simp] theorem State.fetched_delay (s : State) (w : Word) : (s.fetched w).delay = s.delay := rfl
@[simp] theorem State.fetched_sound (s : State) (w : Word) : (s.fetched w).sound = s.sound := rfl
@[simp] theorem State.fetched_keypad (s : State) (w : Word) : (s.fetched w).keypad = s.keypad := rfl
@[simp] theorem State.fetched_mem (s : State) (w : Word) : (s.fetched w).mem = s.mem := rfl
@[simp] theorem State.fetched_opcode (s : State) (w : Word) : (s.fetched w).opcode = w := rfl
@[simp] theorem State.fetched_display (s : State) (w : Word) :
    (s.fetched w).display = s.display := rfl
@[simp] theorem State.fetched_status (s : State) (w : Word) : (s.fetched w).status = .ok := rfl
@[simp] theorem State.fetched_draws (s : State) (w : Word) : (s.fetched w).draws = s.draws := rfl
@[simp] theorem State.fetched_env (s : State) (w : Word) : (s.fetched w).env = s.env := rfl
@[simp] theorem State.fetched_reg (s : State) (w : Word) (r : RegIdx) :
    (s.fetched w).reg r = s.reg r := rfl

/-! ### `State.drawn` -/

@[simp] theorem State.drawn_v (s : State) : (s.drawn).v = s.v := rfl
@[simp] theorem State.drawn_index (s : State) : (s.drawn).index = s.index := rfl
@[simp] theorem State.drawn_pc (s : State) : (s.drawn).pc = s.pc := rfl
@[simp] theorem State.drawn_sp (s : State) : (s.drawn).sp = s.sp := rfl
@[simp] theorem State.drawn_stack (s : State) : (s.drawn).stack = s.stack := rfl
@[simp] theorem State.drawn_delay (s : State) : (s.drawn).delay = s.delay := rfl
@[simp] theorem State.drawn_sound (s : State) : (s.drawn).sound = s.sound := rfl
@[simp] theorem State.drawn_keypad (s : State) : (s.drawn).keypad = s.keypad := rfl
@[simp] theorem State.drawn_mem (s : State) : (s.drawn).mem = s.mem := rfl
@[simp] theorem State.drawn_opcode (s : State) : (s.drawn).opcode = s.opcode := rfl
@[simp] theorem State.drawn_display (s : State) : (s.drawn).display = s.display := rfl
@[simp] theorem State.drawn_status (s : State) : (s.drawn).status = s.status := rfl
@[simp] theorem State.drawn_draws (s : State) : (s.drawn).draws = s.draws + 1 := rfl
@[simp] theorem State.drawn_env (s : State) : (s.drawn).env = s.env := rfl
@[simp] theorem State.drawn_reg (s : State) (r : RegIdx) :
    (s.drawn).reg r = s.reg r := rfl

/-! ### `State.markStarted` -/

@[simp] theorem State.markStarted_v (s : State) : (s.markStarted).v = s.v := rfl
@[simp] theorem State.markStarted_index (s : State) : (s.markStarted).index = s.index := rfl
@[simp] theorem State.markStarted_pc (s : State) : (s.markStarted).pc = s.pc := rfl
@[simp] theorem State.markStarted_sp (s : State) : (s.markStarted).sp = s.sp := rfl
@[simp] theorem State.markStarted_stack (s : State) : (s.markStarted).stack = s.stack := rfl
@[simp] theorem State.markStarted_delay (s : State) : (s.markStarted).delay = s.delay := rfl
@[simp] theorem State.markStarted_sound (s : State) : (s.markStarted).sound = s.sound := rfl
@[simp] theorem State.markStarted_keypad (s : State) : (s.markStarted).keypad = s.keypad := rfl
@[simp] theorem State.markStarted_mem (s : State) : (s.markStarted).mem = s.mem := rfl
@[simp] theorem State.markStarted_opcode (s : State) : (s.markStarted).opcode = s.opcode := rfl
@[simp] theorem State.markStarted_display (s : State) : (s.markStarted).display = s.display := rfl
@[simp] theorem State.markStarted_status (s : State) : (s.markStarted).status = s.status := rfl
@[simp] theorem State.markStarted_draws (s : State) : (s.markStarted).draws = s.draws := rfl
@[simp] theorem State.markStarted_env (s : State) :
    (s.markStarted).env = { s.env with started := true } := rfl
@[simp] theorem State.markStarted_reg (s : State) (r : RegIdx) :
    (s.markStarted).reg r = s.reg r := rfl

/-! ### `State.withEvents` -/

@[simp] theorem State.withEvents_v (s : State) (es : List HostEvent) :
    (s.withEvents es).v = s.v := rfl
@[simp] theorem State.withEvents_index (s : State) (es : List HostEvent) :
    (s.withEvents es).index = s.index := rfl
@[simp] theorem State.withEvents_pc (s : State) (es : List HostEvent) :
    (s.withEvents es).pc = s.pc := rfl
@[simp] theorem State.withEvents_sp (s : State) (es : List HostEvent) :
    (s.withEvents es).sp = s.sp := rfl
@[simp] theorem State.withEvents_stack (s : State) (es : List HostEvent) :
    (s.withEvents es).stack = s.stack := rfl
@[simp] theorem State.withEvents_delay (s : State) (es : List HostEvent) :
    (s.withEvents es).delay = s.delay := rfl
@[simp] theorem State.withEvents_sound (s : State) (es : List HostEvent) :
    (s.withEvents es).sound = s.sound := rfl
@[simp] theorem State.withEvents_keypad (s : State) (es : List HostEvent) :
    (s.withEvents es).keypad = s.keypad := rfl
@[simp] theorem State.withEvents_mem (s : State) (es : List HostEvent) :
    (s.withEvents es).mem = s.mem := rfl
@[simp] theorem State.withEvents_opcode (s : State) (es : List HostEvent) :
    (s.withEvents es).opcode = s.opcode := rfl
@[simp] theorem State.withEvents_display (s : State) (es : List HostEvent) :
    (s.withEvents es).display = s.display := rfl
@[simp] theorem State.withEvents_status (s : State) (es : List HostEvent) :
    (s.withEvents es).status = s.status := rfl
@[simp] theorem State.withEvents_draws (s : State) (es : List HostEvent) :
    (s.withEvents es).draws = s.draws := rfl
@[simp] theorem State.withEvents_env (s : State) (es : List HostEvent) :
    (s.withEvents es).env = { s.env with events := es } := rfl
@[simp] theorem State.withEvents_reg (s : State) (es : List HostEvent) (r : RegIdx) :
    (s.withEvents es).reg r = s.reg r := rfl

/-! ### `State.noteLoaded` -/

@[simp] theorem State.noteLoaded_v (s : State) (bs : List Byte) (a : Nat) :
    (s.noteLoaded bs a).v = s.v := rfl
@[simp] theorem State.noteLoaded_index (s : State) (bs : List Byte) (a : Nat) :
    (s.noteLoaded bs a).index = s.index := rfl
@[simp] theorem State.noteLoaded_pc (s : State) (bs : List Byte) (a : Nat) :
    (s.noteLoaded bs a).pc = s.pc := rfl
@[simp] theorem State.noteLoaded_sp (s : State) (bs : List Byte) (a : Nat) :
    (s.noteLoaded bs a).sp = s.sp := rfl
@[simp] theorem State.noteLoaded_stack (s : State) (bs : List Byte) (a : Nat) :
    (s.noteLoaded bs a).stack = s.stack := rfl
@[simp] theorem State.noteLoaded_delay (s : State) (bs : List Byte) (a : Nat) :
    (s.noteLoaded bs a).delay = s.delay := rfl
@[simp] theorem State.noteLoaded_sound (s : State) (bs : List Byte) (a : Nat) :
    (s.noteLoaded bs a).sound = s.sound := rfl
@[simp] theorem State.noteLoaded_keypad (s : State) (bs : List Byte) (a : Nat) :
    (s.noteLoaded bs a).keypad = s.keypad := rfl
@[simp] theorem State.noteLoaded_mem (s : State) (bs : List Byte) (a : Nat) :
    (s.noteLoaded bs a).mem = s.mem := rfl
@[simp] theorem State.noteLoaded_opcode (s : State) (bs : List Byte) (a : Nat) :
    (s.noteLoaded bs a).opcode = s.opcode := rfl
@[simp] theorem State.noteLoaded_display (s : State) (bs : List Byte) (a : Nat) :
    (s.noteLoaded bs a).display = s.display := rfl
@[simp] theorem State.noteLoaded_status (s : State) (bs : List Byte) (a : Nat) :
    (s.noteLoaded bs a).status = s.status := rfl
@[simp] theorem State.noteLoaded_draws (s : State) (bs : List Byte) (a : Nat) :
    (s.noteLoaded bs a).draws = s.draws := rfl
@[simp] theorem State.noteLoaded_env (s : State) (bs : List Byte) (a : Nat) :
    (s.noteLoaded bs a).env = { s.env with
      fontLoaded := s.env.fontLoaded ||
        decide (a = s.env.config.fontBase.val ∧ bs = s.env.config.fontSet.toList)
      programLoaded := s.env.programLoaded || decide (a = Config.programStart.toNat) } := rfl
@[simp] theorem State.noteLoaded_reg (s : State) (bs : List Byte) (a : Nat) (r : RegIdx) :
    (s.noteLoaded bs a).reg r = s.reg r := rfl

/-! ### `State.withLoaderFinished` -/

@[simp] theorem State.withLoaderFinished_v (s : State) : (s.withLoaderFinished).v = s.v := rfl
@[simp] theorem State.withLoaderFinished_index (s : State) :
    (s.withLoaderFinished).index = s.index := rfl
@[simp] theorem State.withLoaderFinished_pc (s : State) : (s.withLoaderFinished).pc = s.pc := rfl
@[simp] theorem State.withLoaderFinished_sp (s : State) : (s.withLoaderFinished).sp = s.sp := rfl
@[simp] theorem State.withLoaderFinished_stack (s : State) :
    (s.withLoaderFinished).stack = s.stack := rfl
@[simp] theorem State.withLoaderFinished_delay (s : State) :
    (s.withLoaderFinished).delay = s.delay := rfl
@[simp] theorem State.withLoaderFinished_sound (s : State) :
    (s.withLoaderFinished).sound = s.sound := rfl
@[simp] theorem State.withLoaderFinished_keypad (s : State) :
    (s.withLoaderFinished).keypad = s.keypad := rfl
@[simp] theorem State.withLoaderFinished_mem (s : State) : (s.withLoaderFinished).mem = s.mem := rfl
@[simp] theorem State.withLoaderFinished_opcode (s : State) :
    (s.withLoaderFinished).opcode = s.opcode := rfl
@[simp] theorem State.withLoaderFinished_display (s : State) :
    (s.withLoaderFinished).display = s.display := rfl
@[simp] theorem State.withLoaderFinished_status (s : State) :
    (s.withLoaderFinished).status = s.status := rfl
@[simp] theorem State.withLoaderFinished_draws (s : State) :
    (s.withLoaderFinished).draws = s.draws := rfl
@[simp] theorem State.withLoaderFinished_env (s : State) :
    (s.withLoaderFinished).env = { s.env with fontLoaded := true, programLoaded := true } := rfl
@[simp] theorem State.withLoaderFinished_reg (s : State) (r : RegIdx) :
    (s.withLoaderFinished).reg r = s.reg r := rfl

/-! ### `State.withSource` -/

@[simp] theorem State.withSource_v (s : State) (k n : Nat) :
    (s.withSource k n).v = s.v := rfl
@[simp] theorem State.withSource_index (s : State) (k n : Nat) :
    (s.withSource k n).index = s.index := rfl
@[simp] theorem State.withSource_pc (s : State) (k n : Nat) :
    (s.withSource k n).pc = s.pc := rfl
@[simp] theorem State.withSource_sp (s : State) (k n : Nat) :
    (s.withSource k n).sp = s.sp := rfl
@[simp] theorem State.withSource_stack (s : State) (k n : Nat) :
    (s.withSource k n).stack = s.stack := rfl
@[simp] theorem State.withSource_delay (s : State) (k n : Nat) :
    (s.withSource k n).delay = s.delay := rfl
@[simp] theorem State.withSource_sound (s : State) (k n : Nat) :
    (s.withSource k n).sound = s.sound := rfl
@[simp] theorem State.withSource_keypad (s : State) (k n : Nat) :
    (s.withSource k n).keypad = s.keypad := rfl
@[simp] theorem State.withSource_mem (s : State) (k n : Nat) :
    (s.withSource k n).mem = s.mem := rfl
@[simp] theorem State.withSource_opcode (s : State) (k n : Nat) :
    (s.withSource k n).opcode = s.opcode := rfl
@[simp] theorem State.withSource_display (s : State) (k n : Nat) :
    (s.withSource k n).display = s.display := rfl
@[simp] theorem State.withSource_status (s : State) (k n : Nat) :
    (s.withSource k n).status = s.status := rfl
@[simp] theorem State.withSource_draws (s : State) (k n : Nat) : (s.withSource k n).draws = n := rfl
@[simp] theorem State.withSource_env (s : State) (k n : Nat) :
    (s.withSource k n).env = { s.env with config := { s.env.config with source := k } } := rfl
@[simp] theorem State.withSource_reg (s : State) (k n : Nat) (r : RegIdx) :
    (s.withSource k n).reg r = s.reg r := rfl
@[simp] theorem State.withSource_randomByte (s : State) (k n : Nat) :
    (s.withSource k n).randomByte = Config.randomSource k n := rfl

/-! ### The register file -/

/-- A register after a register write (R10). -/
theorem State.reg_setReg (s : State) (x r : RegIdx) (b : Byte) :
    (s.setReg x b).reg r = if r = x then b else s.reg r := by
  simp only [State.reg, State.setReg, Vector.getElem_set, BitVec.toNat_inj, eq_comm]

@[simp] theorem State.reg_setReg_self (s : State) (x : RegIdx) (b : Byte) :
    (s.setReg x b).reg x = b := by
  simp [State.reg_setReg]

/-- A register write leaves every other register alone (R10). -/
theorem State.reg_setReg_of_ne (s : State) {x r : RegIdx} (b : Byte) (h : r ≠ x) :
    (s.setReg x b).reg r = s.reg r := by
  simp [State.reg_setReg, h]

/-- What a register write leaves: the written register apart, everything (R10). -/
theorem State.setReg_frame (s : State) (x : RegIdx) (b : Byte) :
    s.setReg x b = { s with v := (s.setReg x b).v } := rfl

end Sys2Proof.Machine
end

