-- ==== Sys2Proof/Laws/Ops.lean ====
section
/-! SUPPORT. For each shared operation the one lemma that says everything it can do; the provers cite
these instead of unfolding the operation. -/

namespace Sys2Proof.Machine

/-! ### Faults and the range check -/

/-- Raising a fault is a next state that differs in the status alone (R176). -/
theorem raise_raises (f : Fault) (s : State) : Raises f s (raise f s) := by
  refine ⟨s.setStatus (.fault f), rfl, rfl, fun _ _ => rfl, ?_⟩
  intro p hp
  cases p <;> simp_all [Part.same]

/-- The range check finds nothing exactly when there is no byte or the last one is in memory (R42). -/
theorem checkRange_eq_none_iff {kind : OobKind} {a len : Nat} :
    checkRange kind a len = none ↔ len = 0 ∨ a + len ≤ 4096 := by
  unfold checkRange Config.memorySize
  split <;> simp_all

/-- What the range check finds: the lowest address outside memory (R175). -/
theorem checkRange_of_outside {kind : OobKind} {a len : Nat} (h0 : len ≠ 0) (h : 4096 < a + len) :
    checkRange kind a len = some (.outOfBoundsAddress kind (max a 4096)) := by
  simp [checkRange, Config.memorySize, h0, Nat.not_le.mpr h]

/-- A guarded operation completes, or raises and does nothing else. -/
theorem guarded_cases (check : Option Fault) (s t : State) :
    (check = none ∧ guarded check s t = .next t) ∨
      ∃ f, check = some f ∧ guarded check s t = raise f s := by
  cases check with
  | none => exact .inl ⟨rfl, rfl⟩
  | some f => exact .inr ⟨f, rfl, rfl⟩

/-- A guarded range access completes when its bytes are in memory. -/
theorem guarded_checkRange_inside {kind : OobKind} {a len : Nat} {s t : State}
    (h : len = 0 ∨ a + len ≤ 4096) : guarded (checkRange kind a len) s t = .next t := by
  rw [checkRange_eq_none_iff.mpr h]; rfl

/-- A guarded range access raises when a byte is outside memory. -/
theorem guarded_checkRange_outside {kind : OobKind} {a len : Nat} {s t : State}
    (h0 : len ≠ 0) (h : 4096 < a + len) :
    guarded (checkRange kind a len) s t = raise (.outOfBoundsAddress kind (max a 4096)) s := by
  rw [checkRange_of_outside h0 h]; rfl

/-! ### Skips and flags -/

/-- A skip changes `pc` alone. -/
theorem State.skipIf_eq (s : State) (c : Bool) :
    s.skipIf c = s.setPc (if c then s.pc + 2 else s.pc) := by
  cases c <;> rfl

/-- A register after a result and its flag were stored: the flag wins in `VF` (R100). -/
theorem State.reg_setRegFlag (s : State) (x r : RegIdx) (b : Byte) (c : Bool) :
    (s.setRegFlag x b c).reg r =
      if r = 15 then flagByte c else if r = x then b else s.reg r := by
  simp only [State.setRegFlag, State.reg_setReg, flagReg]

/-- Storing a result and its flag changes the register file alone. -/
theorem State.setRegFlag_unchanged (s : State) (x : RegIdx) (b : Byte) (c : Bool) :
    Unchanged [] s (s.setRegFlag x b c) := by
  intro p _
  cases p <;> simp [Part.same, State.setRegFlag]

/-! ### Loading registers -/

/-- Loading registers changes the register file alone. -/
theorem State.setRegsFrom_eq (s : State) (i : Nat) (bs : List Byte) :
    s.setRegsFrom i bs = { s with v := (s.setRegsFrom i bs).v } := by
  induction bs generalizing s i with
  | nil => rfl
  | cons b bs ih => rw [State.setRegsFrom, ih]; rfl

/-- A register after a run of registers was loaded (R125). -/
theorem State.reg_setRegsFrom (s : State) (i : Nat) (bs : List Byte) (h : i + bs.length ≤ 16)
    (r : RegIdx) :
    (s.setRegsFrom i bs).reg r =
      if i ≤ r.toNat then (bs[r.toNat - i]?).getD (s.reg r) else s.reg r := by
  induction bs generalizing s i with
  | nil => simp [State.setRegsFrom]
  | cons b bs ih =>
    have hlen : i + (bs.length + 1) ≤ 16 := by simpa using h
    rw [State.setRegsFrom, ih _ _ (by omega), State.reg_setReg]
    have hr : r = BitVec.ofNat 4 i ↔ r.toNat = i := by
      rw [← BitVec.toNat_inj, BitVec.toNat_ofNat, Nat.mod_eq_of_lt (by omega)]
    rcases Nat.lt_trichotomy r.toNat i with h1 | h1 | h1
    · simp [hr, Nat.not_le.mpr h1, Nat.not_le.mpr (Nat.lt_succ_of_lt h1), Nat.ne_of_lt h1]
    · simp [hr, h1]
    · have h2 : r.toNat - i = (r.toNat - (i + 1)) + 1 := by omega
      simp [hr, h1, Nat.le_of_lt h1, Nat.ne_of_gt h1, h2]

/-- Byte `i` of `V[0]` to `V[x]` is `V[i]` (R124). -/
theorem State.getElem?_regsUpTo (s : State) (x : RegIdx) (i : Nat) :
    (s.regsUpTo x)[i]? = if i ≤ x.toNat then some (s.reg (BitVec.ofNat 4 i)) else none := by
  by_cases h : i ≤ x.toNat
  · have hi : i < 16 := Nat.lt_of_le_of_lt h x.isLt
    have hlt : i < x.toNat + 1 := Nat.lt_succ_of_le h
    simp [State.regsUpTo, State.reg, hlt, h, hi, Nat.mod_eq_of_lt hi]
  · simp [State.regsUpTo, h, Nat.not_lt.mpr (Nat.lt_of_not_le h)]

@[simp] theorem State.length_regsUpTo (s : State) (x : RegIdx) :
    (s.regsUpTo x).length = x.toNat + 1 := by
  have := x.isLt
  simp [State.regsUpTo]; omega

/-! ### The stack -/

/-- A push: nothing at depth 16, else the entry is stored and counted (R17, R84). -/
theorem State.push?_cases (s : State) :
    (s.push? = none ∧ s.sp.val = 16) ∨
      ∃ (h : s.sp.val < 16) (n : Fin 17), n.val = s.sp.val + 1 ∧
        s.push? = some { s with stack := s.stack.set s.sp.val s.pc, sp := n } := by
  by_cases h : s.sp.val < 16
  · exact .inr ⟨h, _, rfl, dif_pos h⟩
  · exact .inl ⟨by simp [State.push?, h], by omega⟩

/-- A pop: nothing at depth 0, else the top entry goes to `pc` and is no longer counted (R17, R82). -/
theorem State.pop?_cases (s : State) :
    (s.pop? = none ∧ s.sp.val = 0) ∨
      ∃ (h : 0 < s.sp.val) (n : Fin 17), n.val = s.sp.val - 1 ∧
        s.pop? = some { s with pc := s.stack[s.sp.val - 1], sp := n } := by
  by_cases h : 0 < s.sp.val
  · exact .inr ⟨h, _, rfl, dif_pos h⟩
  · exact .inl ⟨by simp [State.pop?, h], by omega⟩

/-! ### Keys -/

/-- A key number names a level or raises the fault of R135. -/
theorem State.keyLevel_cases (s : State) (k : Byte) :
    (∃ h : k.toNat < 16, s.keyLevel k = .ok s.keypad[k.toNat]) ∨
      (16 ≤ k.toNat ∧ s.keyLevel k = .error (.outOfBoundsAddress .keypad k.toNat)) := by
  by_cases h : k.toNat < 16
  · exact .inl ⟨h, by simp [State.keyLevel, h]⟩
  · exact .inr ⟨Nat.not_lt.mp h, by simp [State.keyLevel, h]⟩

/-- The least pressed key: pressed, with none below it pressed; or none at all (R136). -/
theorem State.leastPressed_cases (s : State) :
    (s.leastPressed = none ∧ ∀ k (h : k < 16), s.keypad[k] = false) ∨
      ∃ (k : Nat) (h : k < 16), s.leastPressed = some k ∧ s.keypad[k] = true ∧
        ∀ j (hj : j < k), s.keypad[j] = false := by
  cases hk : s.leastPressed with
  | none =>
    refine .inl ⟨rfl, fun k h => ?_⟩
    have := List.findIdx?_eq_none_iff.mp hk (s.keypad[k]) (by simp)
    simpa using this
  | some k =>
    obtain ⟨h, h1, h2⟩ := List.findIdx?_eq_some_iff_getElem.mp hk
    have hk16 : k < 16 := by simpa using h
    exact .inr ⟨k, hk16, rfl, by simpa using h1, fun j hj => by simpa using h2 j hj⟩

/-! ### The Cycle event -/

/-- What `fetch` answers: the word at `pc` up to 0x0FFE, the fetch fault above it (R44, R158). -/
theorem State.fetch_cases (s : State) :
    (s.pc.toNat ≤ 0x0FFE ∧ s.fetch = .ok s.nextWord) ∨
      (0x0FFF ≤ s.pc.toNat ∧ s.fetch = .error (.outOfBoundsAddress .fetch s.pc.toNat)) := by
  by_cases h : s.pc.toNat + 2 ≤ 4096
  · exact .inl ⟨by omega, by simp [State.fetch, Config.memorySize, h, State.nextWord]⟩
  · exact .inr ⟨by omega, by simp [State.fetch, Config.memorySize, h]⟩

/-- Nothing has halted the run exactly when it goes on (R166). -/
theorem haltedBy_eq_none_iff (s : State) : s.haltedBy = none ↔ RunGoesOn s := by
  unfold State.haltedBy RunGoesOn
  cases s.status <;> cases s.env.config.faultPolicy <;> simp

/-- What has halted the run is the fault the status holds, under HALT (R166). -/
theorem haltedBy_eq_some_iff (s : State) (f : Fault) :
    s.haltedBy = some f ↔ s.status = .fault f ∧ s.env.config.faultPolicy = .halt := by
  unfold State.haltedBy
  cases s.status <;> cases s.env.config.faultPolicy <;> simp

/-- The Loader has finished when it has placed the font and a program (R203). -/
theorem loaderFinished_eq_true_iff (s : State) :
    s.loaderFinished = true ↔ s.env.fontLoaded = true ∧ s.env.programLoaded = true := by
  simp [State.loaderFinished]

/-- When the host may issue a Cycle event, that event is one fetch and what follows it (R156). -/
theorem cycle_of_mayCycle {s : State} (h : MayCycle s) : cycle s = runInstruction s.markStarted := by
  simp [cycle, (haltedBy_eq_none_iff s).mpr h.1, (loaderFinished_eq_true_iff s).mpr h.2]

/-- A fetch fault, a decode error, or one instruction (R156, R158, R171). -/
theorem runInstruction_cases (s : State) :
    (0x0FFF ≤ s.pc.toNat ∧ runInstruction s = raise (.outOfBoundsAddress .fetch s.pc.toNat) s) ∨
    (s.pc.toNat ≤ 0x0FFE ∧
      ((∃ e, decodeWord s.nextWord = .error e ∧
          runInstruction s = raise (.decodeError s.nextWord) (s.fetched s.nextWord)) ∨
        ∃ i, decodeWord s.nextWord = .ok i ∧ runInstruction s = exec i (s.fetched s.nextWord))) := by
  rcases State.fetch_cases s with ⟨hp, hf⟩ | ⟨hp, hf⟩
  · refine .inr ⟨hp, ?_⟩
    cases hd : decodeWord s.nextWord with
    | error e => exact .inl ⟨e, rfl, by simp [runInstruction, hf, hd]⟩
    | ok i => exact .inr ⟨i, rfl, by simp [runInstruction, hf, hd]⟩
  · exact .inl ⟨hp, by simp [runInstruction, hf]⟩

/-- What a Cycle event does: nothing under HALT after a fault, nothing before the Loader has finished,
else one fetch and, after it, a decode error or one instruction (R156, R158, R163, R166, R171). -/
theorem cycle_cases (s : State) :
    (∃ f, s.status = .fault f ∧ s.env.config.faultPolicy = .halt ∧ cycle s = .fault f) ∨
    (RunGoesOn s ∧ ¬ (s.env.fontLoaded = true ∧ s.env.programLoaded = true) ∧
      cycle s = .refused .cycleBeforeLoaderFinished) ∨
    (MayCycle s ∧ 0x0FFF ≤ s.pc.toNat ∧
      cycle s = raise (.outOfBoundsAddress .fetch s.pc.toNat) s.markStarted) ∨
    (MayCycle s ∧ s.pc.toNat ≤ 0x0FFE ∧
      ((∃ e, decodeWord s.nextWord = .error e ∧
          cycle s = raise (.decodeError s.nextWord) (s.markStarted.fetched s.nextWord)) ∨
        ∃ i, decodeWord s.nextWord = .ok i ∧
          cycle s = exec i (s.markStarted.fetched s.nextWord))) := by
  cases hh : s.haltedBy with
  | some f =>
    obtain ⟨h1, h2⟩ := (haltedBy_eq_some_iff s f).mp hh
    exact .inl ⟨f, h1, h2, by simp [cycle, hh]⟩
  | none =>
    have hg := (haltedBy_eq_none_iff s).mp hh
    right
    by_cases hl : s.env.fontLoaded = true ∧ s.env.programLoaded = true
    · right
      have hm : MayCycle s := ⟨hg, hl⟩
      rw [cycle_of_mayCycle hm]
      rcases runInstruction_cases s.markStarted with ⟨hp, hr⟩ | ⟨hp, hr⟩
      · exact .inl ⟨hm, hp, hr⟩
      · exact .inr ⟨hm, hp, hr⟩
    · refine .inl ⟨hg, hl, ?_⟩
      have : s.loaderFinished = false := by
        rw [Bool.eq_false_iff, ne_eq, loaderFinished_eq_true_iff]; exact hl
      simp [cycle, hh, this]

/-- With a Cycle event due, a step is that Cycle event. -/
theorem step_of_cycleDue {s r : State} (h : CycleDue s r) : step s = cycle r := by
  rcases h with ⟨h, rfl⟩ | ⟨es, h, rfl⟩
  · simp [step, nextEvent, h]
  · simp [step, nextEvent, h, handleEvent]

/-! ### The host's events -/

/-- A timer counts down by one and stays at 0 (R185). -/
theorem countDown_toNat (t : Byte) : (countDown t).toNat = t.toNat - 1 := by
  have ht := t.isLt
  unfold countDown
  split
  · simp_all
  · rename_i h
    have h0 : t.toNat ≠ 0 := fun h0 => h (BitVec.eq_of_toNat_eq (by simpa using h0))
    simp [BitVec.toNat_sub]; omega

/-- A Load event is refused after the first Cycle event, completes when its bytes fit, and otherwise
raises and writes nothing (R163, R204). -/
theorem load_cases (bytes : List Byte) (addr : Nat) (s : State) :
    (s.env.started = true ∧ load bytes addr s = .refused .loadAfterFirstCycle) ∨
    (s.env.started = false ∧ (bytes = [] ∨ addr + bytes.length ≤ 4096) ∧
      load bytes addr s = .next ((s.setMem (s.mem.writeBytes addr bytes)).noteLoaded bytes addr)) ∨
    (s.env.started = false ∧ bytes ≠ [] ∧ 4096 < addr + bytes.length ∧
      load bytes addr s = raise (.outOfBoundsAddress .load (max addr 4096)) s) := by
  cases hs : s.env.started with
  | true => exact .inl ⟨rfl, by simp [load, hs]⟩
  | false =>
    right
    by_cases hb : bytes = [] ∨ addr + bytes.length ≤ 4096
    · refine .inl ⟨rfl, hb, ?_⟩
      simp only [load, hs]
      exact guarded_checkRange_inside (hb.imp_left (fun h => by simp [h]))
    · obtain ⟨h0, h1⟩ := not_or.mp hb
      refine .inr ⟨rfl, h0, by omega, ?_⟩
      simp only [load, hs]
      exact guarded_checkRange_outside (by simpa using h0) (by omega)

/-- The font is noted as placed when it was before or this Load is it (R203). -/
theorem noteLoaded_fontLoaded (s : State) (bytes : List Byte) (addr : Nat) :
    (s.noteLoaded bytes addr).env.fontLoaded = true ↔ s.env.fontLoaded = true ∨
      (addr = s.env.config.fontBase.val ∧ bytes = s.env.config.fontSet.toList) := by
  simp only [State.noteLoaded_env, Bool.or_eq_true, decide_eq_true_iff]

/-- A program is noted as placed when one was before or this Load is at the program start (R203). -/
theorem noteLoaded_programLoaded (s : State) (bytes : List Byte) (addr : Nat) :
    (s.noteLoaded bytes addr).env.programLoaded = true ↔
      s.env.programLoaded = true ∨ addr = 0x200 := by
  simp only [State.noteLoaded_env, Bool.or_eq_true, decide_eq_true_iff]
  rfl

/-- With events listed, a step is the first of them with the others still to come (R155). -/
theorem step_of_events {s : State} {e : HostEvent} {es : List HostEvent}
    (h : s.env.events = e :: es) : step s = handleEvent e (s.withEvents es) := by
  simp only [step, nextEvent, h]

/-- One more step of a run. -/
theorem run_succ (n : Nat) (s : State) :
    Host.Core.run ⟨State, Fault, Refusal, step, State.reset⟩ (n + 1) s =
      match step s with
      | .next t => Host.Core.run ⟨State, Fault, Refusal, step, State.reset⟩ n t
      | .fault f => .fault f
      | .refused r => .refused r := by
  simp only [Host.Core.run]
  cases step s <;> rfl

end Sys2Proof.Machine
end

