-- ==== Sys2Proof/Laws/Exec.lean ====
section
/-! SUPPORT. For each instruction whose outcome depends on the state, the outcome as an equation (the
others are equations by definition), and the frame lemmas that several proofs cite. -/

namespace Sys2Proof.Machine

theorem exec_ret_of_pos {s : State} (h : 0 < s.sp.val) : ∃ n : Fin 17, n.val = s.sp.val - 1 ∧
    exec .ret s = .next { s with pc := s.stack[s.sp.val - 1], sp := n } := by
  rcases s.pop?_cases with ⟨_, h0⟩ | ⟨_, n, hn, ht⟩
  · omega
  · exact ⟨n, hn, by simp only [exec, execRet, ht]⟩

theorem exec_ret_of_zero {s : State} (h : s.sp.val = 0) :
    exec .ret s = raise .stackUnderflow s := by
  have ht : s.pop? = none := dif_neg (by omega)
  simp only [exec, execRet, ht]

theorem exec_call_of_lt {s : State} (nnn : Addr) (h : s.sp.val < 16) :
    ∃ n : Fin 17, n.val = s.sp.val + 1 ∧ exec (.call nnn) s =
      .next { s with stack := s.stack.set s.sp.val s.pc, sp := n, pc := addrOperand nnn } := by
  rcases s.push?_cases with ⟨_, h0⟩ | ⟨_, n, hn, ht⟩
  · omega
  · exact ⟨n, hn, by simp only [exec, execCall, ht]; rfl⟩

theorem exec_call_of_full {s : State} (nnn : Addr) (h : s.sp.val = 16) :
    exec (.call nnn) s = raise (.stackOverflow nnn) s := by
  have ht : s.push? = none := dif_neg (by omega)
  simp only [exec, execCall, ht]

theorem exec_skp_of_lt {s : State} {x : RegIdx} (h : (s.reg x).toNat < 16) :
    exec (.skp x) s = .next (s.skipIf (s.keypad[(s.reg x).toNat] == true)) := by
  have hk : s.keyLevel (s.reg x) = .ok s.keypad[(s.reg x).toNat] := dif_pos h
  simp only [exec, execSkp, skipOnKey, hk]

theorem exec_skp_of_ge {s : State} {x : RegIdx} (h : 16 ≤ (s.reg x).toNat) :
    exec (.skp x) s = raise (.outOfBoundsAddress .keypad (s.reg x).toNat) s := by
  have hk : s.keyLevel (s.reg x) = .error (.outOfBoundsAddress .keypad (s.reg x).toNat) :=
    dif_neg (by omega)
  simp only [exec, execSkp, skipOnKey, hk]

theorem exec_sknp_of_lt {s : State} {x : RegIdx} (h : (s.reg x).toNat < 16) :
    exec (.sknp x) s = .next (s.skipIf (s.keypad[(s.reg x).toNat] == false)) := by
  have hk : s.keyLevel (s.reg x) = .ok s.keypad[(s.reg x).toNat] := dif_pos h
  simp only [exec, execSknp, skipOnKey, hk]

theorem exec_sknp_of_ge {s : State} {x : RegIdx} (h : 16 ≤ (s.reg x).toNat) :
    exec (.sknp x) s = raise (.outOfBoundsAddress .keypad (s.reg x).toNat) s := by
  have hk : s.keyLevel (s.reg x) = .error (.outOfBoundsAddress .keypad (s.reg x).toNat) :=
    dif_neg (by omega)
  simp only [exec, execSknp, skipOnKey, hk]

theorem exec_ldVxK_cases (x : RegIdx) (s : State) :
    ((∀ k (h : k < 16), s.keypad[k] = false) ∧
      exec (.ldVxK x) s = .next ((s.setPc (s.pc - 2)).setStatus .waiting)) ∨
    ∃ (k : Nat) (h : k < 16), s.keypad[k] = true ∧ (∀ j (hj : j < k), s.keypad[j] = false) ∧
      exec (.ldVxK x) s = .next (s.setReg x (BitVec.ofNat 8 k)) := by
  rcases s.leastPressed_cases with ⟨h1, h2⟩ | ⟨k, hk, h1, h2, h3⟩
  · exact .inl ⟨h2, by simp only [exec, execLdVxK, h1]⟩
  · exact .inr ⟨k, hk, h2, h3, by simp only [exec, execLdVxK, h1]⟩

theorem exec_ldB_inside {x : RegIdx} {s : State} (h : s.index.toNat + 2 ≤ 4095) :
    exec (.ldB x) s =
      .next (s.setMem (s.mem.writeBytes s.index.toNat (decimalDigits (s.reg x)))) :=
  guarded_checkRange_inside (.inr (by simp only [State.indexAddr]; omega))

theorem exec_ldB_outside {x : RegIdx} {s : State} (h : 4095 < s.index.toNat + 2) :
    exec (.ldB x) s = raise (.outOfBoundsAddress .write (max s.index.toNat 4096)) s :=
  guarded_checkRange_outside (by decide) (by simp only [State.indexAddr]; omega)

theorem exec_storeRegs_inside {x : RegIdx} {s : State} (h : s.index.toNat + x.toNat ≤ 4095) :
    exec (.storeRegs x) s = .next (s.setMem (s.mem.writeBytes s.index.toNat (s.regsUpTo x))) :=
  guarded_checkRange_inside (.inr (by simp only [State.indexAddr]; omega))

theorem exec_storeRegs_outside {x : RegIdx} {s : State} (h : 4095 < s.index.toNat + x.toNat) :
    exec (.storeRegs x) s = raise (.outOfBoundsAddress .write (max s.index.toNat 4096)) s :=
  guarded_checkRange_outside (by omega) (by simp only [State.indexAddr]; omega)

theorem exec_loadRegs_inside {x : RegIdx} {s : State} (h : s.index.toNat + x.toNat ≤ 4095) :
    exec (.loadRegs x) s =
      .next (s.setRegsFrom 0 (s.mem.readBytes s.index.toNat (x.toNat + 1))) :=
  guarded_checkRange_inside (.inr (by simp only [State.indexAddr]; omega))

theorem exec_loadRegs_outside {x : RegIdx} {s : State} (h : 4095 < s.index.toNat + x.toNat) :
    exec (.loadRegs x) s = raise (.outOfBoundsAddress .read (max s.index.toNat 4096)) s :=
  guarded_checkRange_outside (by omega) (by simp only [State.indexAddr]; omega)

theorem exec_drw_inside {x y : RegIdx} {n : BitVec 4} {s : State}
    (h : n.toNat = 0 ∨ s.index.toNat + n.toNat ≤ 4096) :
    exec (.drw x y n) s = .next (s.afterBlit (blit s.display
      (spritePixels (s.reg x).toNat (s.reg y).toNat 0
        (s.mem.readBytes s.index.toNat n.toNat)))) :=
  guarded_checkRange_inside h

theorem exec_drw_outside {x y : RegIdx} {n : BitVec 4} {s : State}
    (h0 : n.toNat ≠ 0) (h : 4096 < s.index.toNat + n.toNat) :
    exec (.drw x y n) s = raise (.outOfBoundsAddress .read (max s.index.toNat 4096)) s :=
  guarded_checkRange_outside h0 h

/-! ### Raises or completes

For each instruction that can fault: it raises its fault, with the condition and the fault, or it
completes. -/

theorem exec_ret_cases (s : State) :
    (s.sp.val = 0 ∧ exec .ret s = raise .stackUnderflow s) ∨
      (0 < s.sp.val ∧ ∃ n : Fin 17, n.val = s.sp.val - 1 ∧ ∃ h,
        exec .ret s = .next { s with pc := s.stack[s.sp.val - 1]'h, sp := n }) := by
  by_cases h : 0 < s.sp.val
  · obtain ⟨n, hn, he⟩ := exec_ret_of_pos h
    exact .inr ⟨h, n, hn, _, he⟩
  · exact .inl ⟨by omega, exec_ret_of_zero (by omega)⟩

theorem exec_call_cases (nnn : Addr) (s : State) :
    (s.sp.val = 16 ∧ exec (.call nnn) s = raise (.stackOverflow nnn) s) ∨
      (s.sp.val < 16 ∧ ∃ n : Fin 17, n.val = s.sp.val + 1 ∧ ∃ h, exec (.call nnn) s =
        .next { s with stack := s.stack.set s.sp.val s.pc h, sp := n, pc := addrOperand nnn }) := by
  by_cases h : s.sp.val < 16
  · obtain ⟨n, hn, he⟩ := exec_call_of_lt nnn h
    exact .inr ⟨h, n, hn, _, he⟩
  · exact .inl ⟨by omega, exec_call_of_full nnn (by omega)⟩

theorem exec_skp_cases (x : RegIdx) (s : State) :
    (16 ≤ (s.reg x).toNat ∧
        exec (.skp x) s = raise (.outOfBoundsAddress .keypad (s.reg x).toNat) s) ∨
      ((s.reg x).toNat < 16 ∧ ∃ h,
        exec (.skp x) s = .next (s.skipIf (s.keypad[(s.reg x).toNat]'h == true))) := by
  by_cases h : (s.reg x).toNat < 16
  · exact .inr ⟨h, _, exec_skp_of_lt h⟩
  · exact .inl ⟨by omega, exec_skp_of_ge (by omega)⟩

theorem exec_sknp_cases (x : RegIdx) (s : State) :
    (16 ≤ (s.reg x).toNat ∧
        exec (.sknp x) s = raise (.outOfBoundsAddress .keypad (s.reg x).toNat) s) ∨
      ((s.reg x).toNat < 16 ∧ ∃ h,
        exec (.sknp x) s = .next (s.skipIf (s.keypad[(s.reg x).toNat]'h == false))) := by
  by_cases h : (s.reg x).toNat < 16
  · exact .inr ⟨h, _, exec_sknp_of_lt h⟩
  · exact .inl ⟨by omega, exec_sknp_of_ge (by omega)⟩

theorem exec_ldB_cases (x : RegIdx) (s : State) :
    (4095 < s.index.toNat + 2 ∧
        exec (.ldB x) s = raise (.outOfBoundsAddress .write (max s.index.toNat 4096)) s) ∨
      (s.index.toNat + 2 ≤ 4095 ∧ exec (.ldB x) s =
        .next (s.setMem (s.mem.writeBytes s.index.toNat (decimalDigits (s.reg x))))) := by
  by_cases h : s.index.toNat + 2 ≤ 4095
  · exact .inr ⟨h, exec_ldB_inside h⟩
  · exact .inl ⟨by omega, exec_ldB_outside (by omega)⟩

theorem exec_storeRegs_cases (x : RegIdx) (s : State) :
    (4095 < s.index.toNat + x.toNat ∧
        exec (.storeRegs x) s = raise (.outOfBoundsAddress .write (max s.index.toNat 4096)) s) ∨
      (s.index.toNat + x.toNat ≤ 4095 ∧ exec (.storeRegs x) s =
        .next (s.setMem (s.mem.writeBytes s.index.toNat (s.regsUpTo x)))) := by
  by_cases h : s.index.toNat + x.toNat ≤ 4095
  · exact .inr ⟨h, exec_storeRegs_inside h⟩
  · exact .inl ⟨by omega, exec_storeRegs_outside (by omega)⟩

theorem exec_loadRegs_cases (x : RegIdx) (s : State) :
    (4095 < s.index.toNat + x.toNat ∧
        exec (.loadRegs x) s = raise (.outOfBoundsAddress .read (max s.index.toNat 4096)) s) ∨
      (s.index.toNat + x.toNat ≤ 4095 ∧ exec (.loadRegs x) s = .next { s with
        v := (s.setRegsFrom 0 (s.mem.readBytes s.index.toNat (x.toNat + 1))).v }) := by
  by_cases h : s.index.toNat + x.toNat ≤ 4095
  · exact .inr ⟨h, by rw [← State.setRegsFrom_eq]; exact exec_loadRegs_inside h⟩
  · exact .inl ⟨by omega, exec_loadRegs_outside (by omega)⟩

theorem exec_drw_cases (x y : RegIdx) (n : BitVec 4) (s : State) :
    ((n.toNat ≠ 0 ∧ 4096 < s.index.toNat + n.toNat) ∧
        exec (.drw x y n) s = raise (.outOfBoundsAddress .read (max s.index.toNat 4096)) s) ∨
      ((n.toNat = 0 ∨ s.index.toNat + n.toNat ≤ 4096) ∧ exec (.drw x y n) s =
        .next (s.afterBlit (blit s.display (spritePixels (s.reg x).toNat (s.reg y).toNat 0
          (s.mem.readBytes s.index.toNat n.toNat))))) := by
  by_cases h : n.toNat = 0 ∨ s.index.toNat + n.toNat ≤ 4096
  · exact .inr ⟨h, exec_drw_inside h⟩
  · exact .inl ⟨by omega, exec_drw_outside (by omega) (by omega)⟩

/-! ### Frames -/

/-- Loading registers changes no other part of the state. -/
theorem State.setRegsFrom_unchanged (s : State) (i : Nat) (bs : List Byte) :
    Unchanged [] s (s.setRegsFrom i bs) := by
  intro p _
  rw [State.setRegsFrom_eq]
  cases p <;> simp [Part.same]

/-- What a draw leaves: the screen, and the flag register. -/
theorem State.afterBlit_eq (s : State) (r : Display × Bool) :
    s.afterBlit r = { s with display := r.1, v := (s.setReg 15 (flagByte r.2)).v } := rfl

end Sys2Proof.Machine
end

