-- ==== Sys2Proof/Laws/Draw.lean ====
section
/-! SUPPORT. The sprite rasteriser: what inverting pixels does to the screen, which pixels a sprite
inverts, and that it inverts none of them twice (44_display.md R140 to R142). -/

namespace Sys2Proof.Machine

@[simp] theorem State.afterBlit_display (s : State) (r : Display × Bool) :
    (s.afterBlit r).display = r.1 := rfl

/-- The registers after a draw: the collision in `VF`, the others as they were (R140, R145). -/
theorem State.reg_afterBlit (s : State) (r : Display × Bool) (q : RegIdx) :
    (s.afterBlit r).reg q = if q = 15 then flagByte r.2 else s.reg q := by
  simp only [State.afterBlit, State.reg_setReg, flagReg, State.setDisplay_reg]

/-- A draw changes the screen and the registers alone. -/
theorem State.afterBlit_unchanged (s : State) (r : Display × Bool) :
    Unchanged [.display] s (s.afterBlit r) := by
  intro p hp
  rw [State.afterBlit_eq]
  cases p <;> simp_all [Part.same]

/-- Inverting a pixel turns that one over and leaves the others (R140). -/
theorem Display.pixel_invert (d : Display) (px qx : Fin 64) (py qy : Fin 32) :
    Display.pixel (Display.invert d px py) qx qy =
      (Display.pixel d qx qy ^^ decide (qx = px ∧ qy = py)) := by
  by_cases hy : py = qy
  · subst hy
    by_cases hx : px = qx
    · subst hx; simp [Display.pixel, Display.invert]
    · have hx' : qx ≠ px := Ne.symm hx
      simp [Display.pixel, Display.invert, hx', Fin.val_ne_of_ne hx]
  · have hy' : qy ≠ py := Ne.symm hy
    simp [Display.pixel, Display.invert, hy', Vector.getElem_set_ne, Fin.val_ne_of_ne hy]

/-- XORing pixels of which none occurs twice: each of them is turned over, and a collision is one that
was on before (R140, R142). -/
theorem foldl_blitPixel (acc : Display × Bool) (ps : List (Fin 64 × Fin 32)) (h : ps.Nodup) :
    (∀ px py, Display.pixel (ps.foldl blitPixel acc).1 px py =
        (Display.pixel acc.1 px py ^^ decide ((px, py) ∈ ps))) ∧
      (ps.foldl blitPixel acc).2 = (acc.2 || ps.any (fun p => Display.pixel acc.1 p.1 p.2)) := by
  induction ps generalizing acc with
  | nil => simp
  | cons p ps ih =>
    obtain ⟨hp, hps⟩ := List.nodup_cons.mp h
    obtain ⟨h1, h2⟩ := ih (blitPixel acc p) hps
    refine ⟨fun px py => ?_, ?_⟩
    · rw [List.foldl_cons, h1]
      simp only [blitPixel, Display.pixel_invert, List.mem_cons, Bool.xor_assoc]
      by_cases he : (px, py) = p
      · subst he; simp [hp]
      · have he' : ¬(px = p.1 ∧ py = p.2) := fun h => he (Prod.ext h.1 h.2)
        simp [he, he']
    · rw [List.foldl_cons, h2]
      have ha : ps.any (fun q => Display.pixel (Display.invert acc.1 p.1 p.2) q.1 q.2) =
          ps.any (fun q => Display.pixel acc.1 q.1 q.2) := by
        rw [Bool.eq_iff_iff, List.any_eq_true, List.any_eq_true]
        refine exists_congr fun q => and_congr_right fun hq => ?_
        have hne : ¬(q.1 = p.1 ∧ q.2 = p.2) := fun h => hp (Prod.ext h.1 h.2 ▸ hq)
        simp [Display.pixel_invert, hne]
      simp only [blitPixel, ha, List.any_cons, Bool.or_assoc]

/-- `foldl_blitPixel` for a whole sprite. -/
theorem blit_spec (d : Display) (ps : List (Fin 64 × Fin 32)) (h : ps.Nodup) :
    (∀ px py, Display.pixel (blit d ps).1 px py =
        (Display.pixel d px py ^^ decide ((px, py) ∈ ps))) ∧
      (blit d ps).2 = ps.any (fun p => Display.pixel d p.1 p.2) := by
  simpa [blit] using foldl_blitPixel (d, false) ps h

/-- A pixel of sprite row `r`: one of its eight, with the sprite bit set (R140). -/
theorem mem_rowPixels {ox oy r : Nat} {b : Byte} {p : Fin 64 × Fin 32} :
    p ∈ rowPixels ox oy r b ↔ ∃ j, j < 8 ∧ b.getMsbD j = true ∧ pixelAt ox oy j r = p := by
  simp [rowPixels, and_assoc]

/-- A pixel of the sprite: row `r + i`, column `j`, with the sprite bit set (R140). -/
theorem mem_spritePixels {ox oy r : Nat} {bs : List Byte} {p : Fin 64 × Fin 32} :
    p ∈ spritePixels ox oy r bs ↔ ∃ i b j, bs[i]? = some b ∧ j < 8 ∧ b.getMsbD j = true ∧
      pixelAt ox oy j (r + i) = p := by
  induction bs generalizing r with
  | nil => simp [spritePixels]
  | cons b bs ih =>
    rw [spritePixels, List.mem_append, mem_rowPixels, ih]
    constructor
    · rintro (⟨j, h1, h2, h3⟩ | ⟨i, c, j, h0, h1, h2, h3⟩)
      · exact ⟨0, b, j, rfl, h1, h2, h3⟩
      · exact ⟨i + 1, c, j, h0, h1, h2, by rw [← h3]; congr 1; omega⟩
    · rintro ⟨i, c, j, h0, h1, h2, h3⟩
      cases i with
      | zero => cases h0; exact .inl ⟨j, h1, h2, h3⟩
      | succ i => exact .inr ⟨i, c, j, h0, h1, h2, by rw [← h3]; congr 1; omega⟩

/-- A pixel of the sprite whose `n` rows are read from `a` upward (R140). -/
theorem mem_spritePixels_readBytes {ox oy a n : Nat} {m : Memory} {p : Fin 64 × Fin 32} :
    p ∈ spritePixels ox oy 0 (m.readBytes a n) ↔ ∃ r j, r < n ∧ j < 8 ∧
      (m.read (a + r)).getMsbD j = true ∧ pixelAt ox oy j r = p := by
  simp only [mem_spritePixels, Memory.getElem?_readBytes, Nat.zero_add]
  constructor
  · rintro ⟨r, b, j, h0, h1, h2, h3⟩
    split at h0
    · cases h0; exact ⟨r, j, by assumption, h1, h2, h3⟩
    · cases h0
  · rintro ⟨r, j, h0, h1, h2, h3⟩
    exact ⟨r, m.read (a + r), j, by simp [h0], h1, h2, h3⟩

/-- Two pixels of a sprite of at most 32 rows that land on the same place are the same pixel (R141). -/
theorem pixelAt_inj {ox oy j r j' r' : Nat} (hj : j < 8) (hj' : j' < 8) (hr : r < r' + 32)
    (hr' : r' < r + 32) (h : pixelAt ox oy j r = pixelAt ox oy j' r') : j = j' ∧ r = r' := by
  simp only [pixelAt, Prod.mk.injEq, Fin.ext_iff, Fin.ofNat] at h
  omega

theorem nodup_rowPixels (ox oy r : Nat) (b : Byte) : (rowPixels ox oy r b).Nodup := by
  refine List.Nodup.map_on (fun j hj j' hj' h => ?_) (List.nodup_range.filter _)
  simp only [List.mem_filter, List.mem_range] at hj hj'
  exact (pixelAt_inj hj.1 hj'.1 (by omega) (by omega) h).1

/-- No pixel of a sprite of at most 32 rows lands where another one does: wrapping brings no two
together (R141). -/
theorem nodup_spritePixels (ox oy r : Nat) (bs : List Byte) (h : bs.length ≤ 32) :
    (spritePixels ox oy r bs).Nodup := by
  induction bs generalizing r with
  | nil => exact List.nodup_nil
  | cons b bs ih =>
    rw [List.length_cons] at h
    refine List.Nodup.append (nodup_rowPixels ..) (ih _ (by omega)) ?_
    intro p hp hq
    obtain ⟨j, hj, _, rfl⟩ := mem_rowPixels.mp hp
    obtain ⟨i, c, j', hi, hj', _, he⟩ := mem_spritePixels.mp hq
    have hlt : i < bs.length := (List.getElem?_eq_some_iff.mp hi).1
    have := (pixelAt_inj hj' hj (by omega) (by omega) he).2
    omega

end Sys2Proof.Machine
end

