-- ==== Sys2Proof/Laws/PerInstr.lean ====
section
/-! SUPPORT. The per-instruction family `EncodedInRow`: the word the encoder gives an instruction lies
in the instruction's own row of the opcode map (30_encoding.md R66). -/

namespace Sys2Proof.Laws.EncodedInRow

/-- The encoded word matches the mask and the match of the instruction's row (R66). -/
def Statement (i : Instr) : Prop := encode i &&& rowMask i = rowMatch i

theorem cls : Statement (.cls) :=
  (and_F0FF_eq_iff _ 0x0 0xE0).mpr ⟨classOf_packXKK .., fieldKK_packXKK ..⟩

theorem ret : Statement (.ret) :=
  (and_F0FF_eq_iff _ 0x0 0xEE).mpr ⟨classOf_packXKK .., fieldKK_packXKK ..⟩

theorem jp (nnn : Addr) : Statement (.jp nnn) :=
  (and_F000_eq_iff _ 0x1).mpr (classOf_packNNN ..)

theorem call (nnn : Addr) : Statement (.call nnn) :=
  (and_F000_eq_iff _ 0x2).mpr (classOf_packNNN ..)

theorem seImm (x : RegIdx) (kk : Byte) : Statement (.seImm x kk) :=
  (and_F000_eq_iff _ 0x3).mpr (classOf_packXKK ..)

theorem sneImm (x : RegIdx) (kk : Byte) : Statement (.sneImm x kk) :=
  (and_F000_eq_iff _ 0x4).mpr (classOf_packXKK ..)

theorem seReg (x y : RegIdx) : Statement (.seReg x y) :=
  (and_F000_eq_iff _ 0x5).mpr (classOf_packNibbles ..)

theorem ldImm (x : RegIdx) (kk : Byte) : Statement (.ldImm x kk) :=
  (and_F000_eq_iff _ 0x6).mpr (classOf_packXKK ..)

theorem addImm (x : RegIdx) (kk : Byte) : Statement (.addImm x kk) :=
  (and_F000_eq_iff _ 0x7).mpr (classOf_packXKK ..)

theorem ldReg (x y : RegIdx) : Statement (.ldReg x y) :=
  (and_F00F_eq_iff _ 0x8 0x0).mpr ⟨classOf_packNibbles .., fieldN_packNibbles ..⟩

theorem orReg (x y : RegIdx) : Statement (.orReg x y) :=
  (and_F00F_eq_iff _ 0x8 0x1).mpr ⟨classOf_packNibbles .., fieldN_packNibbles ..⟩

theorem andReg (x y : RegIdx) : Statement (.andReg x y) :=
  (and_F00F_eq_iff _ 0x8 0x2).mpr ⟨classOf_packNibbles .., fieldN_packNibbles ..⟩

theorem xorReg (x y : RegIdx) : Statement (.xorReg x y) :=
  (and_F00F_eq_iff _ 0x8 0x3).mpr ⟨classOf_packNibbles .., fieldN_packNibbles ..⟩

theorem addReg (x y : RegIdx) : Statement (.addReg x y) :=
  (and_F00F_eq_iff _ 0x8 0x4).mpr ⟨classOf_packNibbles .., fieldN_packNibbles ..⟩

theorem subReg (x y : RegIdx) : Statement (.subReg x y) :=
  (and_F00F_eq_iff _ 0x8 0x5).mpr ⟨classOf_packNibbles .., fieldN_packNibbles ..⟩

theorem shr (x y : RegIdx) : Statement (.shr x y) :=
  (and_F00F_eq_iff _ 0x8 0x6).mpr ⟨classOf_packNibbles .., fieldN_packNibbles ..⟩

theorem subnReg (x y : RegIdx) : Statement (.subnReg x y) :=
  (and_F00F_eq_iff _ 0x8 0x7).mpr ⟨classOf_packNibbles .., fieldN_packNibbles ..⟩

theorem shl (x y : RegIdx) : Statement (.shl x y) :=
  (and_F00F_eq_iff _ 0x8 0xE).mpr ⟨classOf_packNibbles .., fieldN_packNibbles ..⟩

theorem sneReg (x y : RegIdx) : Statement (.sneReg x y) :=
  (and_F000_eq_iff _ 0x9).mpr (classOf_packNibbles ..)

theorem ldI (nnn : Addr) : Statement (.ldI nnn) :=
  (and_F000_eq_iff _ 0xA).mpr (classOf_packNNN ..)

theorem jpV0 (nnn : Addr) : Statement (.jpV0 nnn) :=
  (and_F000_eq_iff _ 0xB).mpr (classOf_packNNN ..)

theorem rnd (x : RegIdx) (kk : Byte) : Statement (.rnd x kk) :=
  (and_F000_eq_iff _ 0xC).mpr (classOf_packXKK ..)

theorem drw (x y : RegIdx) (n : BitVec 4) : Statement (.drw x y n) :=
  (and_F000_eq_iff _ 0xD).mpr (classOf_packNibbles ..)

theorem skp (x : RegIdx) : Statement (.skp x) :=
  (and_F0FF_eq_iff _ 0xE 0x9E).mpr ⟨classOf_packXKK .., fieldKK_packXKK ..⟩

theorem sknp (x : RegIdx) : Statement (.sknp x) :=
  (and_F0FF_eq_iff _ 0xE 0xA1).mpr ⟨classOf_packXKK .., fieldKK_packXKK ..⟩

theorem ldVxDt (x : RegIdx) : Statement (.ldVxDt x) :=
  (and_F0FF_eq_iff _ 0xF 0x07).mpr ⟨classOf_packXKK .., fieldKK_packXKK ..⟩

theorem ldVxK (x : RegIdx) : Statement (.ldVxK x) :=
  (and_F0FF_eq_iff _ 0xF 0x0A).mpr ⟨classOf_packXKK .., fieldKK_packXKK ..⟩

theorem ldDtVx (x : RegIdx) : Statement (.ldDtVx x) :=
  (and_F0FF_eq_iff _ 0xF 0x15).mpr ⟨classOf_packXKK .., fieldKK_packXKK ..⟩

theorem ldStVx (x : RegIdx) : Statement (.ldStVx x) :=
  (and_F0FF_eq_iff _ 0xF 0x18).mpr ⟨classOf_packXKK .., fieldKK_packXKK ..⟩

theorem addI (x : RegIdx) : Statement (.addI x) :=
  (and_F0FF_eq_iff _ 0xF 0x1E).mpr ⟨classOf_packXKK .., fieldKK_packXKK ..⟩

theorem ldF (x : RegIdx) : Statement (.ldF x) :=
  (and_F0FF_eq_iff _ 0xF 0x29).mpr ⟨classOf_packXKK .., fieldKK_packXKK ..⟩

theorem ldB (x : RegIdx) : Statement (.ldB x) :=
  (and_F0FF_eq_iff _ 0xF 0x33).mpr ⟨classOf_packXKK .., fieldKK_packXKK ..⟩

theorem storeRegs (x : RegIdx) : Statement (.storeRegs x) :=
  (and_F0FF_eq_iff _ 0xF 0x55).mpr ⟨classOf_packXKK .., fieldKK_packXKK ..⟩

theorem loadRegs (x : RegIdx) : Statement (.loadRegs x) :=
  (and_F0FF_eq_iff _ 0xF 0x65).mpr ⟨classOf_packXKK .., fieldKK_packXKK ..⟩

end Sys2Proof.Laws.EncodedInRow
end

