-- ==== Sys2Proof/Tests/Slice0.lean ====
section
/-! SUPPORT. The model's own tests: well-formedness, one decoded word for every instruction, single
steps with results from 95_test_vectors.md, and a witness for the hypotheses of every statement. -/

namespace Sys2Proof.Tests

open Sys2Proof Sys2Proof.Machine

/-! ### Small states -/

/-- The next state, where there is one. -/
def after : Result → Option State
  | .next s => some s
  | _ => none

/-- One Cycle event on the word, placed where the next fetch reads it. -/
def ran (w : Nat) (s : State) : Option State := after (step (s.withFetchWord 16 w))

/-- The reset state with some registers set. -/
def regs : List (RegIdx × Byte) → State
  | [] => State.reset
  | (x, b) :: l => (regs l).setReg x b

/-- Registers set, then `I`. -/
def regsAt (i : Word) (l : List (RegIdx × Byte)) : State := (regs l).setIndex i

/-- Bytes stored from an address upward. -/
def stored (a : Nat) (bs : List Byte) (s : State) : State := s.setMem (s.mem.writeBytes a bs)

/-- Keys pressed. -/
def pressed (ks : List (Fin 16)) (s : State) : State := ks.foldl (fun u k => keySet k true u) s

/-- Pixels turned on. -/
def lit (ps : List (Fin 64 × Fin 32)) (s : State) : State := s.setDisplay (blit s.display ps).1

/-- The stack with a depth and one entry. -/
def stackAt (n : Fin 17) (k : Fin 16) (w : Word) (s : State) : State :=
  { s with sp := n, stack := s.stack.set k w }

/-- The reset state with a finished Loader. -/
def booted : State := State.reset.withLoaderFinished

/-- A schedule for the host. -/
def sched (es : List HostEvent) (s : State) : State := s.withEvents es

/-! ### Well-formedness -/

theorem test_wellFormed_shr : (Instr.shr 3 0).wellFormed = true := by decide
theorem test_illFormed_shr : (Instr.shr 3 1).wellFormed = false := by decide
theorem test_illFormed_shl : (Instr.shl 3 15).wellFormed = false := by decide
theorem test_wellFormed_addReg : (Instr.addReg 15 15).wellFormed = true := by decide

/-! ### Decoding: the words of 95_test_vectors.md 2.1 and the patterns of R66, nibble by nibble -/

theorem test_decode_cls : decodeWord 0x00E0 = .ok .cls := by decide
theorem test_decode_cls_noncanonical : decodeWord 0x03E0 = .ok .cls := by decide
theorem test_decode_ret : decodeWord 0x00EE = .ok .ret := by decide
theorem test_decode_ret_noncanonical : decodeWord 0x0FEE = .ok .ret := by decide
theorem test_decode_jp : decodeWord 0x1234 = .ok (.jp 0x234) := by decide
theorem test_decode_call : decodeWord 0x2ABC = .ok (.call 0xABC) := by decide
theorem test_decode_seImm : decodeWord 0x332A = .ok (.seImm 3 0x2A) := by decide
theorem test_decode_sneImm : decodeWord 0x432B = .ok (.sneImm 3 0x2B) := by decide
theorem test_decode_seReg : decodeWord 0x5120 = .ok (.seReg 1 2) := by decide
theorem test_decode_seReg_noncanonical : decodeWord 0x5127 = .ok (.seReg 1 2) := by decide
theorem test_decode_ldImm : decodeWord 0x6A3C = .ok (.ldImm 0xA 0x3C) := by decide
theorem test_decode_addImm : decodeWord 0x7205 = .ok (.addImm 2 0x05) := by decide
theorem test_decode_ldReg : decodeWord 0x8AB0 = .ok (.ldReg 0xA 0xB) := by decide
theorem test_decode_orReg : decodeWord 0x8AB1 = .ok (.orReg 0xA 0xB) := by decide
theorem test_decode_andReg : decodeWord 0x8AB2 = .ok (.andReg 0xA 0xB) := by decide
theorem test_decode_xorReg : decodeWord 0x8AB3 = .ok (.xorReg 0xA 0xB) := by decide
theorem test_decode_addReg : decodeWord 0x8AB4 = .ok (.addReg 0xA 0xB) := by decide
theorem test_decode_subReg : decodeWord 0x8AB5 = .ok (.subReg 0xA 0xB) := by decide
theorem test_decode_shr : decodeWord 0x8AB6 = .ok (.shr 0xA 0xB) := by decide
theorem test_decode_subnReg : decodeWord 0x8AB7 = .ok (.subnReg 0xA 0xB) := by decide
theorem test_decode_shl : decodeWord 0x8ABE = .ok (.shl 0xA 0xB) := by decide
theorem test_decode_sneReg : decodeWord 0x912F = .ok (.sneReg 1 2) := by decide
theorem test_decode_ldI : decodeWord 0xA2F0 = .ok (.ldI 0x2F0) := by decide
theorem test_decode_jpV0 : decodeWord 0xBFFF = .ok (.jpV0 0xFFF) := by decide
theorem test_decode_rnd : decodeWord 0xC10F = .ok (.rnd 1 0x0F) := by decide
theorem test_decode_drw : decodeWord 0xD5A3 = .ok (.drw 5 0xA 3) := by decide
theorem test_decode_skp : decodeWord 0xEF9E = .ok (.skp 0xF) := by decide
theorem test_decode_sknp : decodeWord 0xE1A1 = .ok (.sknp 1) := by decide
theorem test_decode_ldVxDt : decodeWord 0xF307 = .ok (.ldVxDt 3) := by decide
theorem test_decode_ldVxK : decodeWord 0xF10A = .ok (.ldVxK 1) := by decide
theorem test_decode_ldDtVx : decodeWord 0xF015 = .ok (.ldDtVx 0) := by decide
theorem test_decode_ldStVx : decodeWord 0xF118 = .ok (.ldStVx 1) := by decide
theorem test_decode_addI : decodeWord 0xF21E = .ok (.addI 2) := by decide
theorem test_decode_ldF : decodeWord 0xF029 = .ok (.ldF 0) := by decide
theorem test_decode_ldB : decodeWord 0xF433 = .ok (.ldB 4) := by decide
theorem test_decode_storeRegs : decodeWord 0xF255 = .ok (.storeRegs 2) := by decide
theorem test_decode_loadRegs : decodeWord 0xF365 = .ok (.loadRegs 3) := by decide

theorem test_illegal_class0 : decodeWord 0x0123 = .error (.noClass0Handler 0x23) := by decide
theorem test_illegal_zero : decodeWord 0x0000 = .error (.noClass0Handler 0x00) := by decide
theorem test_illegal_class8 : decodeWord 0x8008 = .error (.noClass8Handler 0x8) := by decide
theorem test_illegal_class8_F : decodeWord 0x800F = .error (.noClass8Handler 0xF) := by decide
theorem test_illegal_classE : decodeWord 0xE1A0 = .error (.noClassEHandler 0xA0) := by decide
theorem test_illegal_classF : decodeWord 0xF085 = .error (.noClassFHandler 0x85) := by decide

/-- A table word with fewer bits than it has digits is cut to its bits; 2.1 gives the byte order. -/
theorem test_decodeTableWord : decodeTableWord 16 0xD5A3 = some (.drw 5 0xA 3) := by decide
theorem test_decodeTableWord_illegal : decodeTableWord 16 0xF030 = none := by decide
theorem test_decode_bytes_high_first :
    decode [0x12, 0x34, 0x99] = .ok (.jp 0x234, [0x99]) := by decide
theorem test_decode_truncated : decode [0x12] = .error .truncated := by decide
theorem test_encode_drw : encode (.drw 5 0xA 3) = 0xD5A3 := by decide
theorem test_encode_shl_canonical : encode (.shl 3 0) = 0x830E := by decide

/-! ### Single steps: the number after each name is the row of 95_test_vectors.md -/

/-- 2.2 row 1: the screen is cleared, `VF` stays. -/
theorem test_cls : (ran 0x00E0 (lit [(0, 0), (63, 31)] (regs [(15, 1)]))).map
    (fun t => (Display.pixel t.display 0 0, Display.pixel t.display 63 31, t.reg 15, t.pc)) =
    some (false, false, 1, 0x202) := by decide
/-- 2.2 rows 2 and 4. -/
theorem test_ret : (ran 0x00EE (stackAt 1 0 0x206 State.reset)).map
    (fun t => (t.sp, t.pc, t.stack[0])) = some (0, 0x206, 0x206) := by decide
theorem test_ret_empty : (ran 0x00EE State.reset).map (fun t => (t.status, t.pc)) =
    some (.fault .stackUnderflow, 0x202) := by decide
/-- 2.2 row 7: an odd target is legal. -/
theorem test_jp : (ran 0x1203 State.reset).map State.pc = some 0x203 := by decide
/-- 2.2 rows 9 and 10. -/
theorem test_call : (ran 0x2ABC (stackAt 15 0 0 State.reset)).map
    (fun t => (t.sp, t.pc, t.stack[15])) = some (16, 0xABC, 0x202) := by decide
theorem test_call_full : (ran 0x2ABC (stackAt 16 0 0 State.reset)).map
    (fun t => (t.status, t.sp, t.pc)) = some (.fault (.stackOverflow 0xABC), 16, 0x202) := by decide
/-- 2.2 rows 13 (twice), 15, 18, 19, 21. -/
theorem test_seImm : (ran 0x3303 (regs [(3, 0x03)])).map State.pc = some 0x204 := by decide
theorem test_seImm_value : (ran 0x3303 (regs [(3, 0x2A)])).map State.pc = some 0x202 := by decide
theorem test_sneImm : (ran 0x432B (regs [(3, 0x2A)])).map State.pc = some 0x204 := by decide
theorem test_seReg : (ran 0x5127 (regs [(1, 4), (2, 4)])).map State.pc = some 0x204 := by decide
theorem test_sneReg : (ran 0x912F (regs [(1, 4), (2, 4)])).map State.pc = some 0x202 := by decide
/-- 2.2 rows 23 and 24. -/
theorem test_jpV0 : (ran 0xBFFF (regs [(0, 0xFF)])).map State.pc = some 0x10FE := by decide
theorem test_jpV0_not_vx : (ran 0xB300 (regs [(3, 0x10)])).map State.pc = some 0x300 := by decide
/-- 2.3 rows 1, 3, 6, 7, 8, 9. -/
theorem test_ldImm : (ran 0x6A3C State.reset).map (fun t => t.reg 0xA) = some 0x3C := by decide
theorem test_addImm : (ran 0x7205 (regs [(2, 0xFE)])).map (fun t => (t.reg 2, t.reg 15)) =
    some (0x03, 0) := by decide
theorem test_ldReg : (ran 0x8210 (regs [(1, 0x55)])).map (fun t => (t.reg 2, t.reg 1)) =
    some (0x55, 0x55) := by decide
theorem test_orReg : (ran 0x8011 (regs [(0, 0xAA), (1, 0x55), (15, 1)])).map
    (fun t => (t.reg 0, t.reg 15)) = some (0xFF, 1) := by decide
theorem test_andReg : (ran 0x8122 (regs [(1, 0xF0), (2, 0x3C)])).map (fun t => t.reg 1) =
    some 0x30 := by decide
theorem test_xorReg : (ran 0x8013 (regs [(0, 0xAA), (1, 0xFF), (15, 1)])).map
    (fun t => (t.reg 0, t.reg 15)) = some (0x55, 1) := by decide
/-- 2.3 rows 13 and 17. -/
theorem test_addReg : (ran 0x8014 (regs [(0, 0xFF), (1, 0x01)])).map
    (fun t => (t.reg 0, t.reg 15)) = some (0x00, 1) := by decide
theorem test_addReg_vf : (ran 0x8FF4 (regs [(15, 0x90)])).map (fun t => t.reg 15) =
    some 1 := by decide
/-- 2.3 rows 18 and 19. -/
theorem test_subReg : (ran 0x8125 (regs [(1, 0x10), (2, 0x20)])).map
    (fun t => (t.reg 1, t.reg 15)) = some (0xF0, 0) := by decide
theorem test_subReg_equal : (ran 0x8015 (regs [(0, 7), (1, 7)])).map
    (fun t => (t.reg 0, t.reg 15)) = some (0x00, 1) := by decide
/-- S3: the field `y` is ignored; 2.3 rows 26, 28, 29, 33. -/
theorem test_shr : (ran 0x8016 (regs [(0, 0xFF), (1, 0x55)])).map
    (fun t => (t.reg 0, t.reg 15, t.reg 1)) = some (0x7F, 1, 0x55) := by decide
theorem test_subnReg : (ran 0x8127 (regs [(1, 0x10), (2, 0x20)])).map
    (fun t => (t.reg 1, t.reg 15)) = some (0x10, 1) := by decide
theorem test_subnReg_vf : (ran 0x8F17 (regs [(15, 3), (1, 5)])).map (fun t => t.reg 15) =
    some 1 := by decide
theorem test_shl : (ran 0x830E (regs [(3, 0x81)])).map (fun t => (t.reg 3, t.reg 15)) =
    some (0x02, 1) := by decide
theorem test_shl_vf : (ran 0x8F0E (regs [(15, 0x40)])).map (fun t => t.reg 15) = some 0 := by decide
/-- 2.4 rows 1, 3, 4, 7, 8. -/
theorem test_ldI : (ran 0xA2F0 (regsAt 0xFFFF [])).map State.index = some 0x02F0 := by decide
theorem test_addI : (ran 0xF01E (regsAt 0xFFF [(0, 1)])).map (fun t => (t.index, t.reg 15)) =
    some (0x1000, 0) := by decide
theorem test_addI_wraps : (ran 0xF01E (regsAt 0xFFFF [(0, 2)])).map State.index =
    some 0x0001 := by decide
theorem test_ldF : (ran 0xF029 (regs [(0, 0x0F)])).map State.index = some 0x09B := by decide
theorem test_ldF_whole_byte : (ran 0xF029 (regs [(0, 0xFF)])).map State.index =
    some 0x54B := by decide
/-- 2.4 rows 11 and 12. -/
theorem test_ldB : (ran 0xF033 (regsAt 0xFFD [(0, 255)])).map
    (fun t => t.mem.readBytes 0xFFD 3) = some [2, 5, 5] := by decide
theorem test_ldB_outside : (ran 0xF033 (regsAt 0xFFE [(0, 255)])).map
    (fun t => (t.status, t.mem.readBytes 0xFFE 2, t.pc)) =
    some (.fault (.outOfBoundsAddress .write 0x1000), [0, 0], 0x202) := by decide
/-- 2.4 rows 14 and 16. -/
theorem test_storeRegs : (ran 0xF255 (regsAt 0x300 [(0, 1), (1, 2), (2, 3), (3, 9)])).map
    (fun t => (t.mem.readBytes 0x300 4, t.index)) = some ([1, 2, 3, 0], 0x300) := by decide
theorem test_storeRegs_outside : (ran 0xF155 (regsAt 0xFFF [(0, 0xAA), (1, 0xBB)])).map
    (fun t => (t.status, t.mem.read 0xFFF)) =
    some (.fault (.outOfBoundsAddress .write 0x1000), 0) := by decide
/-- 2.4 rows 17 and 19. -/
theorem test_loadRegs : (ran 0xF265 (stored 0x300 [2, 3, 4] (regsAt 0x300 [(3, 0x99)]))).map
    (fun t => (t.reg 0, t.reg 1, t.reg 2, t.reg 3, t.index)) =
    some (2, 3, 4, 0x99, 0x300) := by decide
theorem test_loadRegs_outside : (ran 0xFF65 (regsAt 0xFF1 [(0, 0x11)])).map
    (fun t => (t.status, t.reg 0)) =
    some (.fault (.outOfBoundsAddress .read 0x1000), 0x11) := by decide
/-- 2.5 rows 1, 2, 3. -/
theorem test_ldVxDt : (ran 0xF307 (State.reset.setDelay 0x2A)).map
    (fun t => (t.reg 3, t.delay)) = some (0x2A, 0x2A) := by decide
theorem test_ldDtVx : (ran 0xF015 (regs [(0, 0x3C)])).map State.delay = some 0x3C := by decide
theorem test_ldStVx : (ran 0xF118 (regs [(1, 0x05)])).map State.sound = some 0x05 := by decide
/-- 2.5 rows 15, 13, 12, 14. -/
theorem test_skp : (ran 0xE19E (pressed [1] State.reset)).map State.pc = some 0x202 := by decide
theorem test_skp_no_key : (ran 0xE09E (regs [(0, 16)])).map (fun t => (t.status, t.pc)) =
    some (.fault (.outOfBoundsAddress .keypad 16), 0x202) := by decide
theorem test_sknp : (ran 0xE0A1 (regs [(0, 15)])).map State.pc = some 0x204 := by decide
theorem test_sknp_no_key : (ran 0xE0A1 (regs [(0, 0xFF)])).map (fun t => (t.status, t.pc)) =
    some (.fault (.outOfBoundsAddress .keypad 255), 0x202) := by decide
/-- 2.5 rows 16 and 18. -/
theorem test_ldVxK_waits : (ran 0xF10A State.reset).map (fun t => (t.status, t.pc, t.reg 1)) =
    some (.waiting, 0x200, 0) := by decide
theorem test_ldVxK_lowest : (ran 0xF10A (pressed [9, 3, 12] State.reset)).map
    (fun t => (t.status, t.pc, t.reg 1)) = some (.ok, 0x202, 3) := by decide
/-- 2.6 rows 4 and 10. -/
theorem test_drw_wraps : (ran 0xD012 (stored 0x300 [0xFF, 0x81]
      (regsAt 0x300 [(0, 62), (1, 31)]))).map
    (fun t => ([Display.pixel t.display 62 31, Display.pixel t.display 5 31,
      Display.pixel t.display 6 31, Display.pixel t.display 62 0, Display.pixel t.display 63 0,
      Display.pixel t.display 5 0], t.reg 15)) =
    some ([true, true, false, true, false, true], 0) := by decide
theorem test_drw_outside : (ran 0xD00F (stored 0xFF2 [0xFF] (regsAt 0xFF2 [(15, 1)]))).map
    (fun t => (t.status, t.reg 15, Display.pixel t.display 0 0)) =
    some (.fault (.outOfBoundsAddress .read 0x1000), 1, false) := by decide
/-- 2.7: `Cx00` gives 0 for every draw, and one byte is drawn. -/
theorem test_rnd : (ran 0xC100 (regs [(1, 0x55)])).map State.draws = some 1 := by decide

/-- R151: the byte is the next one of the run's own sequence, whichever that is. -/
theorem test_rnd_of_another_run : ∃ t, exec (.rnd 0 0x0F) (State.reset.withSource 7 2) = .next t ∧
    t.reg 0 = Config.randomSource 7 2 &&& 0x0F := ⟨_, rfl, rfl⟩

/-! ### Events and the fetch (2.5 rows 4 and 6, 2.8 rows 3, 7, 8, and R171) -/

theorem test_tick : (after (step (sched [.tick] ((State.reset.setDelay 2).setSound 1)))).map
    (fun t => (t.delay, t.sound)) = some (1, 0) := by decide
theorem test_tick_floor : (after (step (sched [.tick] State.reset))).map
    (fun t => (t.delay, t.sound, t.pc)) = some (0, 0, 0x200) := by decide
theorem test_fetch_fault : (after (step (booted.setPc 0xFFF))).map
    (fun t => (t.status, t.pc, t.opcode)) =
    some (.fault (.outOfBoundsAddress .fetch 0xFFF), 0xFFF, 0) := by decide
theorem test_decode_error : (ran 0x8008 State.reset).map (fun t => (t.status, t.pc, t.opcode)) =
    some (.fault (.decodeError 0x8008), 0x202, 0x8008) := by decide
theorem test_load : (after (step (sched [.load [1, 2, 3] 0xFFD] State.reset))).map
    (fun t => (t.status, t.mem.readBytes 0xFFD 3)) = some (.ok, [1, 2, 3]) := by decide
/-- 2.8 row 9: an empty sequence changes nothing, wherever it starts. -/
theorem test_load_empty : (after (step (sched [.load [] 0x2000] State.reset))).map
    (fun t => (t.status, t.mem)) = some (.ok, []) := by decide
theorem test_load_outside : (after (step (sched [.load [1, 2, 3] 0xFFE] State.reset))).map
    (fun t => (t.status, t.mem.readBytes 0xFFE 2)) =
    some (.fault (.outOfBoundsAddress .load 0x1000), [0, 0]) := by decide
/-- R163 (d): the reset state has nothing loaded, so no Cycle event has a move there. -/
theorem test_cycle_before_loader :
    step State.reset = .refused .cycleBeforeLoaderFinished := rfl
/-- R203: after the font at its base and a program at 0x200 the Loader has finished. -/
theorem test_loader_finished :
    ((State.reset.noteLoaded Config.defaultFont.toList 0x050).noteLoaded [0x12, 0x00] 0x200).loaderFinished
      = true := by decide
theorem test_loader_needs_program :
    (State.reset.noteLoaded Config.defaultFont.toList 0x050).loaderFinished = false := by decide
/-- Assumption log 7: a Load that completes does not lift the fault of an earlier one. -/
theorem test_load_leaves_fault :
    (after (step (sched [.load [1] 0x300] (State.reset.setStatus (.fault .stackUnderflow))))).map
      (fun t => (t.status, t.mem.read 0x300)) = some (.fault .stackUnderflow, 1) := by decide
theorem test_reset_event : (after (step (sched [.reset] ((regs [(3, 7)]).setPc 0x300)))).map
    (fun t => (t.reg 3, t.pc)) = some (0, 0x200) := by decide
theorem test_font_glyph_A :
    (Config.default.fontSet.toList.drop 50).take 5 = [0xF0, 0x90, 0xF0, 0x90, 0x90] := by decide

/-! ### Witnesses: for every statement with hypotheses, a state and operands that meet them, at the
boundary of each clause -/

/-- A state at a self-jump: the word `1200` at 0x200 (2.2 row 6). -/
def atSelfJump : State := State.reset.withFetchWord 16 0x1200

/-- A state at a key wait with no key pressed (2.5 row 16). -/
def atKeyWait : State := State.reset.withFetchWord 16 0xF10A

/-- A state whose last event was a fault. -/
def faulted : State := booted.setStatus (.fault .stackUnderflow)

/-- The same under the policy SKIP. -/
def faultedSkip : State :=
  { faulted with env := { faulted.env with config := { Config.default with faultPolicy := .skip } } }

/-- A state whose host has issued a Cycle event and lists a Load. -/
def startedLoad : State := (sched [.load [1] 0x300] State.reset).markStarted

theorem booted_mayCycle : MayCycle booted := ⟨(fun _ _ h => nomatch h), rfl, rfl⟩
theorem reset_notFaulted : State.reset.notFaulted := fun _ h => nomatch h

theorem witness_EncodeOfDecodeClearsUnexaminedBits : decodeWord 0x5127 = .ok (.seReg 1 2) := by decide
theorem witness_ClearScreenTurnsEveryPixelOff : (0x0FE0 : Word) &&& 0xF0FF = 0x00E0 := by decide
theorem witness_ReturnPopsOrUnderflows_low : 0 < (stackAt 1 0 0x206 State.reset).sp.val := by decide
theorem witness_ReturnPopsOrUnderflows_high : 0 < (stackAt 16 15 0x206 State.reset).sp.val := by decide
theorem witness_ReturnPopsOrUnderflows_empty : State.reset.sp.val = 0 := by decide
theorem witness_ReturnPopsOrUnderflows_word : (0x0FEE : Word) &&& 0xF0FF = 0x00EE := by decide
theorem witness_JumpLoadsTheAddress : (0x1FFF : Word) &&& 0xF000 = 0x1000 := by decide
theorem witness_CallPushesOrOverflows_high : (stackAt 15 0 0 State.reset).sp.val < 16 := by decide
theorem witness_CallPushesOrOverflows_full : (stackAt 16 0 0 State.reset).sp.val = 16 := by decide
theorem witness_CallPushesOrOverflows_word : (0x2ABC : Word) &&& 0xF000 = 0x2000 := by decide
theorem witness_SkipComparesRegisterWithByte :
    (0x3F00 : Word) &&& 0xF000 = 0x3000 ∧ (0x4FFF : Word) &&& 0xF000 = 0x4000 := by decide
theorem witness_SkipComparesTwoRegisters :
    (0x5127 : Word) &&& 0xF000 = 0x5000 ∧ (0x912F : Word) &&& 0xF000 = 0x9000 := by decide
theorem witness_JumpWithOffsetAddsV0 : (0xBFFF : Word) &&& 0xF000 = 0xB000 := by decide
theorem witness_LoadImmediateStoresTheByte : (0x6FAB : Word) &&& 0xF000 = 0x6000 := by decide
theorem witness_AddImmediateWrapsWithoutFlag : (0x7F01 : Word) &&& 0xF000 = 0x7000 := by decide
theorem witness_CopyAndLogicWriteNoFlag :
    (0x8FA0 : Word) &&& 0xF00F = 0x8000 ∧ (0x8FA1 : Word) &&& 0xF00F = 0x8001 ∧
    (0x8FA2 : Word) &&& 0xF00F = 0x8002 ∧ (0x8FA3 : Word) &&& 0xF00F = 0x8003 := by decide
theorem witness_AddStoresSumThenCarry : (0x8FF4 : Word) &&& 0xF00F = 0x8004 ∧
    (14 : RegIdx) ≠ 15 := by decide
theorem witness_SubtractStoresDifferenceThenNoBorrow :
    (0x8F15 : Word) &&& 0xF00F = 0x8005 ∧ (0x8F17 : Word) &&& 0xF00F = 0x8007 ∧
    (0 : RegIdx) ≠ 15 := by decide
theorem witness_ShiftsStoreResultThenBitShiftedOut :
    (0x8016 : Word) &&& 0xF00F = 0x8006 ∧ (0x8F0E : Word) &&& 0xF00F = 0x800E ∧
    (14 : RegIdx) ≠ 15 := by decide
theorem witness_LoadIndexStoresTheAddress : (0xA2F0 : Word) &&& 0xF000 = 0xA000 := by decide
theorem witness_AddToIndexWrapsWithoutFlag : (0xFF1E : Word) &&& 0xF0FF = 0xF01E := by decide
theorem witness_PointAtGlyphUsesTheWholeByte : (0xF029 : Word) &&& 0xF0FF = 0xF029 := by decide
theorem witness_DecimalDigitsAreStoredAtIndex : (0xF433 : Word) &&& 0xF0FF = 0xF033 ∧
    (regsAt 0xFFD []).index.toNat + 2 ≤ 4095 ∧ 4095 < (regsAt 0xFFE []).index.toNat + 2 := by decide
theorem witness_StoreRegistersWritesARange : (0xF255 : Word) &&& 0xF0FF = 0xF055 ∧
    (regsAt 0xFF0 []).index.toNat + (15 : RegIdx).toNat ≤ 4095 ∧
    (regsAt 0xFFF []).index.toNat + (0 : RegIdx).toNat ≤ 4095 ∧
    4095 < (regsAt 0xFF1 []).index.toNat + (15 : RegIdx).toNat := by decide
theorem witness_LoadRegistersReadsARange : (0xF265 : Word) &&& 0xF0FF = 0xF065 ∧
    (regsAt 0xFF0 []).index.toNat + (15 : RegIdx).toNat ≤ 4095 ∧
    4095 < (regsAt 0x1000 []).index.toNat + (0 : RegIdx).toNat := by decide
theorem witness_StoreThenLoadGivesTheRegistersBack :
    (regsAt 0x300 [(0, 1)]).index.toNat + (3 : RegIdx).toNat ≤ 4095 ∧
    ∃ t, exec (.storeRegs 3) (regsAt 0x300 [(0, 1)]) = .next t ∧
      (t.setReg 0 7).index = (regsAt 0x300 [(0, 1)]).index ∧
      ∀ a, (t.setReg 0 7).mem.read a = t.mem.read a :=
  ⟨by decide, _, rfl, rfl, fun _ => rfl⟩
theorem witness_DelayIsReadAndSoundIsSet :
    (0xF307 : Word) &&& 0xF0FF = 0xF007 ∧ (0xF118 : Word) &&& 0xF0FF = 0xF018 := by decide
theorem witness_DelayIsSetAndCountsDownToZero : (0xF015 : Word) &&& 0xF0FF = 0xF015 := by decide
theorem witness_KeySkipsTestTheKeyNamedByTheRegister :
    (0xEF9E : Word) &&& 0xF0FF = 0xE09E ∧ (0xE0A1 : Word) &&& 0xF0FF = 0xE0A1 ∧
    ((regs [(0, 15)]).reg 0).toNat < 16 ∧ 16 ≤ ((regs [(0, 16)]).reg 0).toNat := by decide
theorem witness_KeyWaitStoresLeastKeyOrStepsBack_word : (0xF10A : Word) &&& 0xF0FF = 0xF00A := by decide
theorem witness_KeyWaitStoresLeastKeyOrStepsBack_key :
    (pressed [15] State.reset).keypad[15] = true ∧
    ∀ j (hj : j < 15), (pressed [15] State.reset).keypad[j] = false := by decide
theorem witness_KeyWaitStoresLeastKeyOrStepsBack_none :
    ∀ k (h : k < 16), State.reset.keypad[k] = false := by decide
theorem witness_DrawXorsTheSpriteAndReportsCollision_word :
    (0xD5A3 : Word) &&& 0xF000 = 0xD000 := by decide
theorem witness_DrawXorsTheSpriteAndReportsCollision_inside :
    (regsAt 0xFFF []).index.toNat + (1 : BitVec 4).toNat ≤ 4096 ∧ (0 : BitVec 4).toNat = 0 := by decide
theorem witness_DrawXorsTheSpriteAndReportsCollision_outside :
    (15 : BitVec 4).toNat ≠ 0 ∧ 4096 < (regsAt 0xFF2 []).index.toNat + (15 : BitVec 4).toNat := by decide
/-- Pixel (0, 0) is sprite pixel `(0, 0)`, and pixel (8, 0) is no pixel of a sprite of one row. -/
theorem witness_DrawXorsTheSpriteAndReportsCollision_pixels :
    (0 : Fin 64).val = (((regs [(0, 64)]).reg 0).toNat + 0) % 64 ∧
    ∀ r, r < 1 → ∀ j, j < 8 → ¬ ((8 : Fin 64).val = (0 + j) % 64 ∧ (0 : Fin 32).val = (0 + r) % 32) := by
  decide
theorem witness_DrawingTwiceGivesTheScreenBack :
    (regsAt 0x300 []).index.toNat + (2 : BitVec 4).toNat ≤ 4096 ∧
    ∃ t, exec (.drw 0 1 2) (regsAt 0x300 []) = .next t ∧ t.index = (regsAt 0x300 []).index ∧
      (∀ a, t.mem.read a = (regsAt 0x300 []).mem.read a) ∧
      t.reg 0 = (regsAt 0x300 []).reg 0 ∧ t.reg 1 = (regsAt 0x300 []).reg 1 ∧
      t.display = t.display ∧
      ∀ px py, Display.pixel (regsAt 0x300 []).display px py = false := by
  refine ⟨by decide, _, rfl, rfl, fun _ => rfl, by decide, by decide, rfl, fun px py => ?_⟩
  simp [regsAt, regs, State.reset, State.setIndex, Display.pixel]
theorem witness_RandomByteIsDrawnUnderTheMask : (0xC10F : Word) &&& 0xF000 = 0xC000 ∧
    (0x0F : Byte).getLsbD 4 = false := by decide
theorem witness_RandomByteIsDrawnUnderTheMask_others : (∀ x kk, Instr.cls ≠ .rnd x kk) ∧
    ∃ t, exec .cls State.reset = .next t := ⟨(fun _ _ h => nomatch h), _, rfl⟩

/-- Both forms of a due Cycle event. -/
theorem witness_CycleDue_listed : CycleDue (sched [.cycle, .tick] atSelfJump)
    (sched [.tick] atSelfJump) := .inr ⟨[.tick], rfl, rfl⟩
theorem witness_CycleDue_empty : CycleDue atSelfJump atSelfJump := .inl ⟨rfl, rfl⟩
/-- The last legal fetch (2.8 row 1). -/
theorem witness_StepRunsTheDecodedInstruction :
    let s := stored 0xFFE [0x60, 0x07] (booted.setPc 0xFFE)
    CycleDue s s ∧ MayCycle s ∧ s.pc.toNat ≤ 0x0FFE ∧
      decodeWord (wordOfBytes (s.mem.read s.pc.toNat) (s.mem.read (s.pc.toNat + 1))) =
        .ok (.ldImm 0 7) :=
  ⟨.inl ⟨rfl, rfl⟩, ⟨(fun _ _ h => nomatch h), rfl, rfl⟩, by decide, by decide⟩
theorem witness_FetchAboveMemoryFaultsAndChangesNothing :
    let s := booted.setPc 0xFFF
    CycleDue s s ∧ MayCycle s ∧ 0x0FFE < s.pc.toNat :=
  ⟨.inl ⟨rfl, rfl⟩, ⟨(fun _ _ h => nomatch h), rfl, rfl⟩, by decide⟩
theorem witness_IllegalWordRaisesDecodeError :
    CycleDue booted booted ∧ MayCycle booted ∧ booted.pc.toNat ≤ 0x0FFE ∧
      decodeWord booted.nextWord = .error (.noClass0Handler 0) :=
  ⟨.inl ⟨rfl, rfl⟩, booted_mayCycle, by decide, by decide⟩
theorem witness_IllegalWordRaisesDecodeError_legal :
    CycleDue atSelfJump atSelfJump ∧ MayCycle atSelfJump ∧ atSelfJump.pc.toNat ≤ 0x0FFE ∧
      decodeWord atSelfJump.nextWord = .ok (.jp 0x200) ∧ ∃ t, step atSelfJump = .next t :=
  ⟨.inl ⟨rfl, rfl⟩, ⟨(fun _ _ h => nomatch h), rfl, rfl⟩, by decide, by decide, _, rfl⟩
theorem witness_FaultPolicyDecidesWhatFollows_halt :
    CycleDue faulted faulted ∧ faulted.env.config.faultPolicy = .halt ∧
      faulted.status = .fault .stackUnderflow := ⟨.inl ⟨rfl, rfl⟩, rfl, rfl⟩
theorem witness_FaultPolicyDecidesWhatFollows_skip :
    CycleDue faultedSkip faultedSkip ∧ MayCycle faultedSkip ∧ MayCycle (faultedSkip.setStatus .ok) :=
  ⟨.inl ⟨rfl, rfl⟩, ⟨(fun h => nomatch h), rfl, rfl⟩, ⟨(fun h => nomatch h), rfl, rfl⟩⟩
theorem witness_FaultingInstructionChangesNothing : State.reset.notFaulted ∧
    ∃ t, exec .ret State.reset = .next t ∧ t.status = .fault .stackUnderflow :=
  ⟨reset_notFaulted, _, rfl, rfl⟩
theorem witness_EachFaultHasItsCause : State.reset.notFaulted := reset_notFaulted
theorem witness_OnlyTheKeyWaitSuspends : State.reset.status ≠ .waiting := by decide
theorem witness_KeyWaitMakesNoProgress : atKeyWait.env.events = [] ∧ MayCycle atKeyWait ∧
    atKeyWait.pc.toNat ≤ 0x0FFE ∧ decodeWord atKeyWait.nextWord = .ok (.ldVxK 1) ∧
    ∀ k (h : k < 16), atKeyWait.keypad[k] = false :=
  ⟨rfl, ⟨(fun _ _ h => nomatch h), rfl, rfl⟩, by decide, by decide, by decide⟩
theorem witness_SelfJumpRepeatsForEver : atSelfJump.env.events = [] ∧ MayCycle atSelfJump ∧
    atSelfJump.pc.toNat ≤ 0x0FFE ∧ atSelfJump.pc.toNat = (0x200 : Addr).toNat ∧
    decodeWord atSelfJump.nextWord = .ok (.jp 0x200) :=
  ⟨rfl, ⟨(fun _ _ h => nomatch h), rfl, rfl⟩, by decide, by decide, by decide⟩
/-- P6: `F155` stores the bytes of `120A`; and at the very end of memory. -/
theorem witness_StoredCodeIsFetchedNext :
    let s := ((regsAt 0xFFE [(0, 0x12), (1, 0x0A)]).setPc 0xFFE).withLoaderFinished
    1 ≤ (1 : RegIdx).toNat ∧ s.index = s.pc ∧ s.index.toNat + (1 : RegIdx).toNat ≤ 4095 ∧
      s.env.events = [] ∧ MayCycle s ∧
      decodeWord (wordOfBytes (s.reg 0) (s.reg 1)) = .ok (.jp 0x20A) :=
  ⟨by decide, rfl, by decide, rfl, ⟨(fun _ _ h => nomatch h), rfl, rfl⟩, by decide⟩

theorem witness_TickCountsBothTimersDown : (sched [.tick] State.reset).env.events = [.tick] := rfl
theorem witness_KeySetWritesOneKey :
    (sched [.keySet 5 true] State.reset).env.events = [.keySet 5 true] := rfl
theorem witness_ResetEventZeroesAllButPc :
    (sched [.reset] (regs [(3, 7)])).env.events = [.reset] := rfl
/-- 2.8 rows 7, 9 and 8: the last byte in memory, no byte, one byte outside. -/
theorem witness_LoadCopiesVerbatimOrNotAtAll :
    (sched [.load [1, 2, 3] 0xFFD] State.reset).env.events = [.load [1, 2, 3] 0xFFD] ∧
    (sched [.load [1, 2, 3] 0xFFD] State.reset).env.started = false ∧
    0xFFD + [1, 2, 3].length ≤ 4096 := by decide
theorem witness_LoadCopiesVerbatimOrNotAtAll_empty :
    (sched [.load [] 0x2000] State.reset).env.events = [.load [] 0x2000] ∧
    (sched [.load [] 0x2000] State.reset).env.started = false ∧ ([] : List Byte) = [] := by decide
theorem witness_LoadCopiesVerbatimOrNotAtAll_outside :
    (sched [.load [1, 2, 3] 0xFFE] State.reset).env.events = [.load [1, 2, 3] 0xFFE] ∧
    (sched [.load [1, 2, 3] 0xFFE] State.reset).env.started = false ∧
    ([1, 2, 3] : List Byte) ≠ [] ∧ 4096 < 0xFFE + [1, 2, 3].length := by decide
theorem witness_BootPlacesFontAndProgram :
    [0x60, 0x0A].length ≤ 3584 ∧
    (sched (bootEvents Config.default [0x60, 0x0A]) State.reset).env.events =
      bootEvents (sched (bootEvents Config.default [0x60, 0x0A]) State.reset).env.config
        [0x60, 0x0A] := ⟨by decide, rfl⟩
theorem witness_NoLoadAfterTheFirstCycle :
    startedLoad.env.events = [.load [1] 0x300] ∧ startedLoad.env.started = true := ⟨rfl, rfl⟩
theorem witness_NoLoadAfterTheFirstCycle_cycle :
    CycleDue atSelfJump atSelfJump ∧ ∃ t, step atSelfJump = .next t := ⟨.inl ⟨rfl, rfl⟩, _, rfl⟩
/-- A Cycle event due at reset, with nothing loaded, and one listed before a Load. -/
theorem witness_NoCycleBeforeTheLoaderHasFinished :
    CycleDue State.reset State.reset ∧ RunGoesOn State.reset ∧
      ¬ (State.reset.env.fontLoaded = true ∧ State.reset.env.programLoaded = true) :=
  ⟨.inl ⟨rfl, rfl⟩, (fun _ _ h => nomatch h), by decide⟩
theorem witness_NoCycleBeforeTheLoaderHasFinished_listed :
    let s := sched [.cycle, .load [1] 0x200] State.reset
    CycleDue s (sched [.load [1] 0x200] State.reset) ∧ RunGoesOn s ∧
      ¬ (s.env.fontLoaded = true ∧ s.env.programLoaded = true) :=
  ⟨.inr ⟨[.load [1] 0x200], rfl, rfl⟩, (fun _ _ h => nomatch h), by decide⟩
theorem witness_NoCycleBeforeTheLoaderHasFinished_cycle :
    CycleDue atSelfJump atSelfJump ∧ ∃ t, step atSelfJump = .next t := ⟨.inl ⟨rfl, rfl⟩, _, rfl⟩
theorem witness_NoCycleBeforeTheLoaderHasFinished_reset :
    (sched [.reset] booted).env.events = [.reset] ∧ ∃ t, step (sched [.reset] booted) = .next t :=
  ⟨rfl, _, rfl⟩
theorem witness_CycleLeavesTheHostsSide :
    CycleDue (sched [.cycle, .tick] atSelfJump) (sched [.tick] atSelfJump) ∧
    ∃ t, step (sched [.cycle, .tick] atSelfJump) = .next t := ⟨.inr ⟨[.tick], rfl, rfl⟩, _, rfl⟩

theorem witness_RegistersWrittenAreThoseOfTheMatrix :
    (∃ t, exec (.loadRegs 2) (regsAt 0x300 []) = .next t) ∧ (Instr.loadRegs 2).writesReg 3 = false :=
  ⟨⟨_, rfl⟩, by decide⟩
theorem witness_RegistersReadAreThoseOfTheMatrix : (Instr.shr 3 4).readsReg 4 = false := by decide
theorem witness_FlagIsZeroOrOne :
    (∃ t, exec (.drw 0 1 0) State.reset = .next t ∧ t.notFaulted) ∧
    Instr.drw 0 1 0 ∈ [Instr.addReg 0 1, .subReg 0 1, .shr 0 1, .subnReg 0 1, .shl 0 1, .drw 0 1 0] :=
  ⟨⟨_, rfl, (fun _ h => nomatch h)⟩, by decide⟩
theorem witness_OnlyStoresWriteMemory :
    ∃ t, exec (.storeRegs 0) (regsAt 0xFFF [(0, 0xAA)]) = .next t ∧
      t.mem.read 0xFFF ≠ (regsAt 0xFFF [(0, 0xAA)]).mem.read 0xFFF := ⟨_, rfl, by decide⟩
theorem witness_OnlyDrawAndClearWriteTheScreen :
    ∃ t, exec .cls (lit [(0, 0)] State.reset) = .next t ∧ Display.pixel t.display 0 0 ≠
      Display.pixel (lit [(0, 0)] State.reset).display 0 0 := ⟨_, rfl, by decide⟩
theorem witness_SystemStateIsWrittenByItsWriters :
    (∃ t, exec (.ldI 0x300) State.reset = .next t ∧ t.index ≠ State.reset.index) ∧
    (∃ t, exec (.call 0x300) State.reset = .next t ∧ t.stack ≠ State.reset.stack ∧
      t.sp ≠ State.reset.sp ∧ t.pc ≠ State.reset.pc) ∧
    (∃ t, exec (.ldDtVx 0) (regs [(0, 1)]) = .next t ∧ t.delay ≠ (regs [(0, 1)]).delay) ∧
    ∃ t, exec (.ldStVx 0) (regs [(0, 1)]) = .next t ∧ t.sound ≠ (regs [(0, 1)]).sound :=
  ⟨⟨_, rfl, by decide⟩, ⟨_, rfl, by decide, by decide, by decide⟩, ⟨_, rfl, by decide⟩,
    ⟨_, rfl, by decide⟩⟩
theorem witness_InvariantIsKeptByEveryStep :
    let s := stackAt 1 0 0x206 (booted.setPc 0x10FE)
    s.Inv ∧ ∃ t, step s = .next t := by
  refine ⟨⟨⟨List.Pairwise.nil, (fun _ h => nomatch h)⟩, by decide, ?_⟩, _, rfl⟩
  intro k h hk
  have hk0 : k = 0 := Nat.lt_one_iff.mp hk
  subst hk0
  exact (by decide : 2 ≤ (0x206 : Word).toNat ∧ (0x206 : Word).toNat ≤ 0x1000)

end Sys2Proof.Tests
end

section
/-! SUPPORT. What an instruction can do, kind by kind, what each kind leaves, and from that the
statements of 10_state.md: who writes what, what an instruction depends on, and the invariant of R29. -/

namespace Sys2Proof.Machine

/-- What instruction `i` can do in the state `s` after its fetch, one constructor for each kind of
effect. Every instruction has one of them (`exec_effect`), so a rule about all instructions is a case
split over the kinds of effect. -/
inductive Effect (s : State) : Instr → State → Prop
  /-- The instruction faults and changes the status alone (R176). -/
  | raised (i : Instr) (f : Fault) : Effect s i (s.setStatus (.fault f))
  /-- One register gets a byte. -/
  | regWritten {i : Instr} {x : RegIdx} (b : Byte) (hx : i.writesReg x = true) :
      Effect s i (s.setReg x b)
  /-- One register gets a result and then `VF` the flag (R100). -/
  | resultAndFlag {i : Instr} {x : RegIdx} (b : Byte) (c : Bool) (hx : i.writesReg x = true)
      (hf : i.writesReg flagReg = true) : Effect s i (s.setRegFlag x b c)
  /-- A random byte is drawn into a register (R150). -/
  | randomDrawn (x : RegIdx) (kk b : Byte) : Effect s (.rnd x kk) (s.drawn.setReg x b)
  /-- `V[0]` to `V[x]` are loaded (R125). -/
  | regsLoaded (x : RegIdx) (bs : List Byte) (hlen : bs.length = x.toNat + 1) :
      Effect s (.loadRegs x) { s with v := (s.setRegsFrom 0 bs).v }
  /-- The screen is cleared (R81). -/
  | screenCleared : Effect s .cls (s.setDisplay blankDisplay)
  /-- A sprite is drawn and `VF` gets the collision (R140). -/
  | spriteDrawn (x y : RegIdx) (n : BitVec 4) (r : Display × Bool) :
      Effect s (.drw x y n) (s.afterBlit r)
  /-- The top return address goes to `pc` and is no longer counted (R82). -/
  | returned (n : Fin 17) (hn : n.val + 1 = s.sp.val) :
      Effect s .ret { s with pc := s.stack[n.val], sp := n }
  /-- The advanced `pc` is pushed and `pc` loaded (R84). -/
  | called (nnn : Addr) (n : Fin 17) (hn : n.val = s.sp.val + 1) :
      Effect s (.call nnn)
        { s with stack := s.stack.set s.sp.val s.pc, sp := n, pc := addrOperand nnn }
  /-- A jump, at most to 0x0FFF + 0xFF (R83, R89). -/
  | jumped {i : Instr} {nnn : Addr} (w : Word) (hi : i = .jp nnn ∨ i = .jpV0 nnn)
      (hw : w.toNat ≤ 0x10FE) : Effect s i (s.setPc w)
  /-- A skip, taken or not (R80). -/
  | skipped {i : Instr} (c : Bool)
      (hi : (∃ x kk, i = .seImm x kk ∨ i = .sneImm x kk) ∨
        (∃ x y, i = .seReg x y ∨ i = .sneReg x y) ∨ ∃ x, i = .skp x ∨ i = .sknp x) :
      Effect s i (s.setPc (if c then s.pc + 2 else s.pc))
  /-- No key is pressed: `pc` steps back (R136). -/
  | suspended (x : RegIdx) : Effect s (.ldVxK x) ((s.setPc (s.pc - 2)).setStatus .waiting)
  /-- `I` gets a value (R120, R121, R122). -/
  | indexSet {i : Instr} (w : Word)
      (hi : (∃ nnn, i = .ldI nnn) ∨ (∃ x, i = .addI x) ∨ ∃ x, i = .ldF x) :
      Effect s i (s.setIndex w)
  /-- The delay timer is set (R131). -/
  | delaySet (x : RegIdx) : Effect s (.ldDtVx x) (s.setDelay (s.reg x))
  /-- The sound timer is set (R132). -/
  | soundSet (x : RegIdx) : Effect s (.ldStVx x) (s.setSound (s.reg x))
  /-- Bytes inside memory are stored from `I` upward (R123, R124). -/
  | bytesStored {i : Instr} (bs : List Byte)
      (hi : (∃ x, i = .ldB x ∧ bs.length = 3) ∨ ∃ x, i = .storeRegs x ∧ bs.length = x.toNat + 1)
      (hfit : s.index.toNat + bs.length ≤ 4096) :
      Effect s i (s.setMem (s.mem.writeBytes s.index.toNat bs))

theorem addrOperand_le (nnn : Addr) : (addrOperand nnn).toNat ≤ 0x0FFF := by
  have := nnn.isLt
  simp [addrOperand]; omega

/-- The offset jump reaches at most 0x0FFF + 0xFF, which does not wrap (R29, R89). -/
theorem addrOperand_add_regWord_le (nnn : Addr) (s : State) (x : RegIdx) :
    (addrOperand nnn + s.regWord x).toNat ≤ 0x10FE := by
  have := addrOperand_le nnn
  have := (s.reg x).isLt
  simp [State.regWord, BitVec.toNat_add]; omega

/-- Every instruction answers a next state, and with one of the kinds of effect (R66). -/
theorem exec_effect (i : Instr) (s : State) : ∃ t, exec i s = .next t ∧ Effect s i t := by
  cases i with
  | cls => exact ⟨_, rfl, .screenCleared⟩
  | ret =>
    rcases exec_ret_cases s with ⟨_, he⟩ | ⟨hpos, n, hn, _, he⟩
    · exact ⟨_, he, .raised ..⟩
    · refine ⟨_, he, ?_⟩
      simp only [← hn]
      exact .returned n (by omega)
  | call nnn =>
    rcases exec_call_cases nnn s with ⟨_, he⟩ | ⟨_, n, hn, _, he⟩
    · exact ⟨_, he, .raised ..⟩
    · exact ⟨_, he, .called nnn n hn⟩
  | jp nnn => exact ⟨_, rfl, .jumped _ (.inl rfl) (by have := addrOperand_le nnn; omega)⟩
  | jpV0 nnn => exact ⟨_, rfl, .jumped _ (.inr rfl) (addrOperand_add_regWord_le ..)⟩
  | seImm x kk | sneImm x kk | seReg x y | sneReg x y =>
    exact ⟨_, rfl, State.skipIf_eq .. ▸ .skipped _ (by simp)⟩
  | skp x =>
    rcases exec_skp_cases x s with ⟨_, he⟩ | ⟨_, _, he⟩
    · exact ⟨_, he, .raised ..⟩
    · exact ⟨_, he, State.skipIf_eq .. ▸ .skipped _ (by simp)⟩
  | sknp x =>
    rcases exec_sknp_cases x s with ⟨_, he⟩ | ⟨_, _, he⟩
    · exact ⟨_, he, .raised ..⟩
    · exact ⟨_, he, State.skipIf_eq .. ▸ .skipped _ (by simp)⟩
  | ldImm x _ | addImm x _ | ldReg x _ | orReg x _ | andReg x _ | xorReg x _ | ldVxDt x =>
    exact ⟨_, rfl, .regWritten _ (by simp [Instr.writesReg])⟩
  | addReg x _ | subReg x _ | shr x _ | subnReg x _ | shl x _ =>
    exact ⟨_, rfl, .resultAndFlag _ _ (by simp [Instr.writesReg]) (by simp [Instr.writesReg])⟩
  | ldVxK x =>
    rcases exec_ldVxK_cases x s with ⟨_, he⟩ | ⟨_, _, _, _, he⟩
    · exact ⟨_, he, .suspended x⟩
    · exact ⟨_, he, .regWritten _ (by simp [Instr.writesReg])⟩
  | rnd x kk => exact ⟨_, rfl, .randomDrawn ..⟩
  | ldI _ | addI _ | ldF _ => exact ⟨_, rfl, .indexSet _ (by simp)⟩
  | ldDtVx x => exact ⟨_, rfl, .delaySet x⟩
  | ldStVx x => exact ⟨_, rfl, .soundSet x⟩
  | drw x y n =>
    rcases exec_drw_cases x y n s with ⟨_, he⟩ | ⟨_, he⟩
    · exact ⟨_, he, .raised ..⟩
    · exact ⟨_, he, .spriteDrawn ..⟩
  | ldB x =>
    rcases exec_ldB_cases x s with ⟨_, he⟩ | ⟨_, he⟩
    · exact ⟨_, he, .raised ..⟩
    · exact ⟨_, he, .bytesStored _ (.inl ⟨x, rfl, rfl⟩) (by simp [decimalDigits]; omega)⟩
  | storeRegs x =>
    rcases exec_storeRegs_cases x s with ⟨_, he⟩ | ⟨_, he⟩
    · exact ⟨_, he, .raised ..⟩
    · exact ⟨_, he, .bytesStored _ (.inr ⟨x, rfl, by simp⟩) (by simp; omega)⟩
  | loadRegs x =>
    rcases exec_loadRegs_cases x s with ⟨_, he⟩ | ⟨_, he⟩
    · exact ⟨_, he, .raised ..⟩
    · exact ⟨_, he, .regsLoaded x _ (by simp)⟩

/-- `exec_effect` for an outcome already at hand. -/
theorem effect_of_exec {i : Instr} {s t : State} (h : exec i s = .next t) : Effect s i t := by
  obtain ⟨u, hu, he⟩ := exec_effect i s
  cases hu.symm.trans h
  exact he

/-! ### What each kind of effect leaves -/

section
variable {i : Instr} {s t : State}

theorem Effect.keypad_eq (h : Effect s i t) : t.keypad = s.keypad := by cases h <;> rfl

theorem Effect.opcode_eq (h : Effect s i t) : t.opcode = s.opcode := by cases h <;> rfl

theorem Effect.env_eq (h : Effect s i t) : t.env = s.env := by cases h <;> rfl

theorem Effect.index_cases (h : Effect s i t) : t.index = s.index ∨
    (∃ nnn, i = .ldI nnn) ∨ (∃ x, i = .addI x) ∨ ∃ x, i = .ldF x := by
  cases h with
  | indexSet w hi => exact .inr hi
  | _ => exact .inl rfl

theorem Effect.stack_cases (h : Effect s i t) : t.stack = s.stack ∨ ∃ nnn, i = .call nnn := by
  cases h with
  | called nnn => exact .inr ⟨nnn, rfl⟩
  | _ => exact .inl rfl

theorem Effect.sp_cases (h : Effect s i t) : t.sp = s.sp ∨ i = .ret ∨ ∃ nnn, i = .call nnn := by
  cases h with
  | returned => exact .inr (.inl rfl)
  | called nnn => exact .inr (.inr ⟨nnn, rfl⟩)
  | _ => exact .inl rfl

theorem Effect.delay_cases (h : Effect s i t) : t.delay = s.delay ∨ ∃ x, i = .ldDtVx x := by
  cases h with
  | delaySet x => exact .inr ⟨x, rfl⟩
  | _ => exact .inl rfl

theorem Effect.sound_cases (h : Effect s i t) : t.sound = s.sound ∨ ∃ x, i = .ldStVx x := by
  cases h with
  | soundSet x => exact .inr ⟨x, rfl⟩
  | _ => exact .inl rfl

theorem Effect.pc_cases (h : Effect s i t) : t.pc = s.pc ∨ i = .ret ∨
    (∃ nnn, i = .jp nnn ∨ i = .call nnn ∨ i = .jpV0 nnn) ∨
    (∃ x kk, i = .seImm x kk ∨ i = .sneImm x kk) ∨ (∃ x y, i = .seReg x y ∨ i = .sneReg x y) ∨
    ∃ x, i = .skp x ∨ i = .sknp x ∨ i = .ldVxK x := by
  cases h with
  | returned => exact .inr (.inl rfl)
  | called nnn => exact .inr (.inr (.inl ⟨nnn, .inr (.inl rfl)⟩))
  | jumped w hi => exact .inr (.inr (.inl ⟨_, hi.imp_right .inr⟩))
  | skipped c hi =>
    rcases hi with hi | hi | ⟨x, hi⟩
    · exact .inr (.inr (.inr (.inl hi)))
    · exact .inr (.inr (.inr (.inr (.inl hi))))
    · exact .inr (.inr (.inr (.inr (.inr ⟨x, hi.imp_right .inl⟩))))
  | suspended x => exact .inr (.inr (.inr (.inr (.inr ⟨x, .inr (.inr rfl)⟩))))
  | _ => exact .inl rfl

theorem Effect.display_cases (h : Effect s i t) :
    t.display = s.display ∨ i = .cls ∨ ∃ x y n, i = .drw x y n := by
  cases h with
  | screenCleared => exact .inr (.inl rfl)
  | spriteDrawn x y n => exact .inr (.inr ⟨x, y, n, rfl⟩)
  | _ => exact .inl rfl

theorem ne_of_writesReg {i : Instr} {r x : RegIdx} (hr : i.writesReg r = false)
    (hx : i.writesReg x = true) : r ≠ x := by
  rintro rfl
  simp [hr] at hx

/-- A register that the matrix does not mark `W` or `F` stays (R12). -/
theorem Effect.reg_eq {r : RegIdx} (h : Effect s i t) (hr : i.writesReg r = false) :
    t.reg r = s.reg r := by
  cases h with
  | regWritten b hx => exact s.reg_setReg_of_ne b (ne_of_writesReg hr hx)
  | @resultAndFlag _ x b c hx hf =>
    have hne : r ≠ x := ne_of_writesReg hr hx
    have hnf : r ≠ 15 := ne_of_writesReg hr hf
    rw [State.reg_setRegFlag, if_neg hnf, if_neg hne]
  | randomDrawn x kk b =>
    exact s.drawn.reg_setReg_of_ne b (by simpa [Instr.writesReg] using hr)
  | regsLoaded x bs hlen =>
    have hlt : x.toNat < r.toNat := by simpa [Instr.writesReg] using hr
    have hx := x.isLt
    have hnone : bs[r.toNat]? = none := List.getElem?_eq_none (by omega)
    rw [← State.setRegsFrom_eq, State.reg_setRegsFrom _ _ _ (by omega)]
    simp [hnone]
  | spriteDrawn x y n d =>
    have hnf : r ≠ 15 := by simpa [Instr.writesReg, flagReg] using hr
    rw [State.reg_afterBlit, if_neg hnf]
  | _ => rfl

/-- In a state after a fetch, whose `pc` is in 2 to 0x1000, every effect keeps the invariant: a call
pushes such a `pc`, and a return takes one back (R15, R29). -/
theorem Effect.inv (h : Effect s i t) (hs : s.Inv) (hlo : 2 ≤ s.pc.toNat)
    (hhi : s.pc.toNat ≤ 0x1000) : t.Inv := by
  obtain ⟨hmem, hpc, hstack⟩ := hs
  cases h with
  | returned n hn =>
    have hlt := s.sp.isLt
    have htop := (hstack n.val (by omega) (by omega)).2
    exact ⟨hmem, Nat.le_trans htop (by decide), fun k hk hks => hstack k hk (by simp at hks; omega)⟩
  | called nnn n hn =>
    refine ⟨hmem, Nat.le_trans (addrOperand_le nnn) (by decide), fun k hk hks => ?_⟩
    simp only [Vector.getElem_set]
    split
    · exact ⟨hlo, hhi⟩
    · exact hstack k hk (by simp at hks; omega)
  | jumped w hi hw => exact ⟨hmem, hw, hstack⟩
  | skipped c =>
    refine ⟨hmem, ?_, hstack⟩
    cases c
    · exact hpc
    · simp [BitVec.toNat_add]; omega
  | suspended x =>
    refine ⟨hmem, ?_, hstack⟩
    simp [BitVec.toNat_sub]; omega
  | bytesStored bs hi hfit => exact ⟨Memory.wf_writeBytes hmem (.inr hfit), hpc, hstack⟩
  | _ => exact ⟨hmem, hpc, hstack⟩

end

/-! ### The Cycle event and every event -/

/-- A Cycle event that answers a next state: a fetch fault, a decode error, or the effect of one
instruction in the state after its fetch (R156, R158, R171). -/
theorem cycle_next_cases {s t : State} (h : cycle s = .next t) :
    (∃ f, t = s.markStarted.setStatus (.fault f)) ∨
    (s.pc.toNat ≤ 0x0FFE ∧
      ((∃ f, t = (s.markStarted.fetched s.nextWord).setStatus (.fault f)) ∨
        ∃ i, Effect (s.markStarted.fetched s.nextWord) i t)) := by
  rcases cycle_cases s with ⟨f, _, _, he⟩ | ⟨_, _, he⟩ | ⟨_, _, he⟩ | ⟨_, hp, ⟨e, _, he⟩ | ⟨i, _, he⟩⟩
  · cases he.symm.trans h
  · cases he.symm.trans h
  · cases he.symm.trans h
    exact .inl ⟨_, rfl⟩
  · cases he.symm.trans h
    exact .inr ⟨hp, .inl ⟨_, rfl⟩⟩
  · exact .inr ⟨hp, .inr ⟨i, effect_of_exec (he.symm.trans h)⟩⟩

theorem cycle_keypad {s t : State} (h : cycle s = .next t) : t.keypad = s.keypad := by
  rcases cycle_next_cases h with ⟨f, rfl⟩ | ⟨_, ⟨f, rfl⟩ | ⟨i, he⟩⟩
  · rfl
  · rfl
  · exact he.keypad_eq

theorem cycle_env {s t : State} (h : cycle s = .next t) :
    t.env = { s.env with started := true } := by
  rcases cycle_next_cases h with ⟨f, rfl⟩ | ⟨_, ⟨f, rfl⟩ | ⟨i, he⟩⟩
  · rfl
  · rfl
  · exact he.env_eq

/-- A property that does not depend on the events still to come, and that every event keeps, is kept
by every step. -/
theorem step_preserves {P : State → Prop} (hev : ∀ s es, P s → P (s.withEvents es))
    (hhandle : ∀ e s t, P s → handleEvent e s = .next t → P t) {s t : State} (hs : P s)
    (h : step s = .next t) : P t := by
  cases hes : s.env.events with
  | nil => exact hhandle .cycle s t hs ((step_of_cycleDue (.inl ⟨hes, rfl⟩)).symm.trans h)
  | cons e es => exact hhandle e _ t (hev s es hs) (step_of_events hes ▸ h)

/-- No event changes the parameters (R5). -/
theorem handleEvent_config (e : HostEvent) {s t : State} (h : handleEvent e s = .next t) :
    t.env.config = s.env.config := by
  cases e with
  | reset => cases h; rfl
  | load bytes addr =>
    rcases load_cases bytes addr s with ⟨_, he⟩ | ⟨_, _, he⟩ | ⟨_, _, _, he⟩
    · cases he.symm.trans h
    · cases he.symm.trans h; rfl
    · cases he.symm.trans h; rfl
  | cycle => rw [cycle_env h]
  | tick => cases h; rfl
  | keySet k b => cases h; rfl

/-- Fetching from at most 0x0FFE leaves the advanced `pc` in 2 to 0x1000. -/
theorem fetched_pc_bounds {s : State} (w : Word) (h : s.pc.toNat ≤ 0x0FFE) :
    2 ≤ (s.fetched w).pc.toNat ∧ (s.fetched w).pc.toNat ≤ 0x1000 := by
  simp [BitVec.toNat_add]; omega

/-- A Cycle event keeps the invariant (R29). -/
theorem cycle_inv {s t : State} (hs : s.Inv) (h : cycle s = .next t) : t.Inv := by
  rcases cycle_next_cases h with ⟨f, rfl⟩ | ⟨hp, hrest⟩
  · exact ⟨hs.memWf, hs.pcLe, hs.stackLive⟩
  · obtain ⟨hlo, hhi⟩ := fetched_pc_bounds (s := s.markStarted) s.nextWord hp
    have hf : (s.markStarted.fetched s.nextWord).Inv :=
      ⟨hs.memWf, Nat.le_trans hhi (by decide), hs.stackLive⟩
    rcases hrest with ⟨f, rfl⟩ | ⟨i, he⟩
    · exact ⟨hf.memWf, hf.pcLe, hf.stackLive⟩
    · exact he.inv hf hlo hhi

theorem reset_inv : State.reset.Inv :=
  ⟨Memory.wf_reset, by decide, fun k _ hk => absurd hk (Nat.not_lt_zero k)⟩

/-- Every event keeps the invariant (R29). -/
theorem handleEvent_inv (e : HostEvent) {s t : State} (hs : s.Inv)
    (h : handleEvent e s = .next t) : t.Inv := by
  cases e with
  | reset => cases h; exact ⟨reset_inv.memWf, reset_inv.pcLe, reset_inv.stackLive⟩
  | load bytes addr =>
    rcases load_cases bytes addr s with ⟨_, he⟩ | ⟨_, hfit, he⟩ | ⟨_, _, _, he⟩
    · cases he.symm.trans h
    · cases he.symm.trans h
      exact ⟨Memory.wf_writeBytes hs.memWf hfit, hs.pcLe, hs.stackLive⟩
    · cases he.symm.trans h
      exact ⟨hs.memWf, hs.pcLe, hs.stackLive⟩
  | cycle => exact cycle_inv hs h
  | tick => cases h; exact ⟨hs.memWf, hs.pcLe, hs.stackLive⟩
  | keySet k b => cases h; exact ⟨hs.memWf, hs.pcLe, hs.stackLive⟩

/-! ### The flag register -/

/-- A flag byte is 0x00 or 0x01 (R112). -/
theorem flagByte_eq_zero_or_one (c : Bool) : flagByte c = 0 ∨ flagByte c = 1 := by
  cases c <;> simp [flagByte]

theorem State.flag_setRegFlag (s : State) (x : RegIdx) (b : Byte) (c : Bool) :
    (s.setRegFlag x b c).reg 15 = 0 ∨ (s.setRegFlag x b c).reg 15 = 1 := by
  rw [State.reg_setRegFlag, if_pos rfl]
  exact flagByte_eq_zero_or_one c

theorem State.flag_afterBlit (s : State) (d : Display × Bool) :
    (s.afterBlit d).reg 15 = 0 ∨ (s.afterBlit d).reg 15 = 1 := by
  rw [State.reg_afterBlit, if_pos rfl]
  exact flagByte_eq_zero_or_one d.2

/-! ### Two runs that differ in one register -/

/-- `t'` is `t` but for the register `r`, which either was overwritten in both alike, or in neither:
then it holds in `t` what it held in `s`, and in `t'` the byte `b`. -/
def Carries (s : State) (r : RegIdx) (b : Byte) (t t' : State) : Prop :=
  t' = t ∨ (t.reg r = s.reg r ∧ t' = t.setReg r b)

section
variable {s t t' : State} {r : RegIdx} {b : Byte}

theorem Carries.start : Carries s r b s (s.setReg r b) := .inr ⟨rfl, rfl⟩

/-- An update that neither reads nor writes the registers. -/
theorem Carries.map (h : Carries s r b t t') (f : State → State)
    (hreg : (f t).reg r = t.reg r) (hcomm : f (t.setReg r b) = (f t).setReg r b) :
    Carries s r b (f t) (f t') := by
  rcases h with rfl | ⟨hr, rfl⟩
  · exact .inl rfl
  · exact .inr ⟨hreg.trans hr, hcomm⟩

/-- Writes of one register: the later one stays. -/
theorem State.setReg_setReg_self (u : State) (x : RegIdx) (c d : Byte) :
    (u.setReg x c).setReg x d = u.setReg x d := by
  simp [State.setReg]

/-- Writes of two registers commute. -/
theorem State.setReg_comm (u : State) {x y : RegIdx} (c d : Byte) (h : x ≠ y) :
    (u.setReg x c).setReg y d = (u.setReg y d).setReg x c := by
  simp [State.setReg, Vector.set_comm _ _ (mt BitVec.toNat_inj.mp h)]

/-- The same byte written to one register in both. -/
theorem Carries.setReg (h : Carries s r b t t') (x : RegIdx) (c : Byte) :
    Carries s r b (t.setReg x c) (t'.setReg x c) := by
  by_cases hx : r = x
  · subst hx
    rcases h with rfl | ⟨_, rfl⟩
    · exact .inl rfl
    · exact .inl (t.setReg_setReg_self r b c)
  · exact h.map (·.setReg x c) (t.reg_setReg_of_ne c hx) (t.setReg_comm b c hx)

/-- The same bytes written to a run of registers in both. -/
theorem Carries.setRegsFrom (h : Carries s r b t t') (k : Nat) (bs : List Byte) :
    Carries s r b (t.setRegsFrom k bs) (t'.setRegsFrom k bs) := by
  induction bs generalizing t t' k with
  | nil => exact h
  | cons c bs ih => exact ih (h.setReg _ c) (k + 1)

theorem Carries.setRegFlag (h : Carries s r b t t') (x : RegIdx) (c : Byte) (flag : Bool) :
    Carries s r b (t.setRegFlag x c flag) (t'.setRegFlag x c flag) :=
  (h.setReg x c).setReg flagReg (flagByte flag)

theorem Carries.skipIf (h : Carries s r b t t') (c : Bool) :
    Carries s r b (t.skipIf c) (t'.skipIf c) :=
  h.map (·.skipIf c) (by cases c <;> rfl) (by cases c <;> rfl)

theorem Carries.afterBlit (h : Carries s r b t t') (d : Display × Bool) :
    Carries s r b (t.afterBlit d) (t'.afterBlit d) :=
  (h.map (·.setDisplay d.1) rfl rfl).setReg flagReg (flagByte d.2)

/-- The statement's form of `Carries`. -/
theorem Carries.agree (h : Carries s r b t t') : RegsUnchanged [r] t t' ∧ Unchanged [] t t' ∧
    (t'.reg r = t.reg r ∨ (t.reg r = s.reg r ∧ t'.reg r = b)) := by
  rcases h with rfl | ⟨hr, rfl⟩
  · exact ⟨fun _ _ => rfl, fun p _ => by cases p <;> simp [Part.same], .inl rfl⟩
  · exact ⟨fun q hq => t.reg_setReg_of_ne b (by simpa using hq),
      fun p _ => by cases p <;> simp [Part.same], .inr ⟨hr, t.reg_setReg_self r b⟩⟩

end

/-- Both outcomes are next states, and the second is the first as `Carries` says. -/
def RunsCarry (s : State) (r : RegIdx) (b : Byte) (o o' : Result) : Prop :=
  ∃ t t', o = .next t ∧ o' = .next t' ∧ Carries s r b t t'

section
variable {s t t' : State} {r : RegIdx} {b : Byte}

theorem Carries.next (h : Carries s r b t t') : RunsCarry s r b (.next t) (.next t') :=
  ⟨t, t', rfl, rfl, h⟩

theorem Carries.raise (h : Carries s r b t t') (f : Fault) :
    RunsCarry s r b (raise f t) (raise f t') :=
  (h.map (·.setStatus (.fault f)) rfl rfl).next

/-- A guarded operation whose check does not depend on the register. -/
theorem Carries.guarded (h : Carries s r b t t') (check : Option Fault) :
    RunsCarry s r b (guarded check s t) (guarded check (s.setReg r b) t') := by
  cases check with
  | none => exact h.next
  | some f => exact Carries.start.raise f

end

/-! What an instruction reads beside its register operands does not depend on the register file. -/

theorem State.regsUpTo_setReg (s : State) {x r : RegIdx} (b : Byte) (h : x.toNat < r.toNat) :
    (s.setReg r b).regsUpTo x = s.regsUpTo x := by
  refine List.ext_getElem? fun k => ?_
  rw [State.getElem?_regsUpTo, State.getElem?_regsUpTo]
  split
  · have hr := r.isLt
    rw [State.reg_setReg_of_ne]
    rintro rfl
    simp at h
    omega
  · rfl

theorem skipOnKey_runsCarry (s : State) (r : RegIdx) (b k : Byte) (level : Bool) :
    RunsCarry s r b (skipOnKey k level s) (skipOnKey k level (s.setReg r b)) := by
  have hk : (s.setReg r b).keyLevel k = s.keyLevel k := rfl
  simp only [skipOnKey, hk]
  cases s.keyLevel k with
  | ok pressed => exact (Carries.start.skipIf _).next
  | error f => exact Carries.start.raise f

theorem execRet_runsCarry (s : State) (r : RegIdx) (b : Byte) :
    RunsCarry s r b (execRet s) (execRet (s.setReg r b)) := by
  by_cases h : 0 < s.sp.val
  · have hs : s.pop? = some _ := dif_pos h
    have hs' : (s.setReg r b).pop? = some _ := dif_pos h
    simp only [execRet, hs, hs']
    exact Carries.next (.inr ⟨rfl, rfl⟩)
  · have hs : s.pop? = none := dif_neg h
    have hs' : (s.setReg r b).pop? = none := dif_neg h
    simp only [execRet, hs, hs']
    exact Carries.start.raise _

theorem execCall_runsCarry (nnn : Addr) (s : State) (r : RegIdx) (b : Byte) :
    RunsCarry s r b (execCall nnn s) (execCall nnn (s.setReg r b)) := by
  by_cases h : s.sp.val < 16
  · have hs : s.push? = some _ := dif_pos h
    have hs' : (s.setReg r b).push? = some _ := dif_pos h
    simp only [execCall, hs, hs']
    exact Carries.next (.inr ⟨rfl, rfl⟩)
  · have hs : s.push? = none := dif_neg h
    have hs' : (s.setReg r b).push? = none := dif_neg h
    simp only [execCall, hs, hs']
    exact Carries.start.raise _

theorem execLdVxK_runsCarry (x : RegIdx) (s : State) (r : RegIdx) (b : Byte) :
    RunsCarry s r b (execLdVxK x s) (execLdVxK x (s.setReg r b)) := by
  have hk : (s.setReg r b).leastPressed = s.leastPressed := rfl
  simp only [execLdVxK, hk]
  cases s.leastPressed with
  | some k => exact (Carries.start.setReg x _).next
  | none => exact (Carries.start.map (fun u => (u.setPc (s.pc - 2)).setStatus .waiting) rfl rfl).next

/-- An instruction run with another byte in a register it does not read (R12): the register operands
are the same in both runs, and each write is then the same in both. -/
theorem exec_runsCarry (i : Instr) (s : State) (r : RegIdx) (b : Byte) (h : i.readsReg r = false) :
    RunsCarry s r b (exec i s) (exec i (s.setReg r b)) := by
  have hread : ∀ {x}, r ≠ x → (s.setReg r b).reg x = s.reg x :=
    fun hx => s.reg_setReg_of_ne b hx.symm
  cases i with
  | cls => exact (Carries.start.map (·.setDisplay blankDisplay) rfl rfl).next
  | ret => exact execRet_runsCarry s r b
  | call nnn => exact execCall_runsCarry nnn s r b
  | jp nnn => exact (Carries.start.map (·.setPc (addrOperand nnn)) rfl rfl).next
  | ldI nnn => exact (Carries.start.map (·.setIndex (addrOperand nnn)) rfl rfl).next
  | ldImm x kk => exact (Carries.start.setReg x kk).next
  | ldVxDt x => exact (Carries.start.setReg x s.delay).next
  | ldVxK x => exact execLdVxK_runsCarry x s r b
  | rnd x kk => exact ((Carries.start.map State.drawn rfl rfl).setReg x _).next
  | loadRegs x => exact (Carries.start.setRegsFrom 0 _).guarded _
  | jpV0 nnn =>
    have hx : r ≠ 0 := by simpa [Instr.readsReg] using h
    simp only [exec, execJpV0, State.regWord, hread hx]
    exact (Carries.start.map (·.setPc _) rfl rfl).next
  | seImm x kk | sneImm x kk =>
    have hx : r ≠ x := by simpa [Instr.readsReg] using h
    simp only [exec, execSeImm, execSneImm, hread hx]
    exact (Carries.start.skipIf _).next
  | skp x | sknp x =>
    have hx : r ≠ x := by simpa [Instr.readsReg] using h
    simp only [exec, execSkp, execSknp, hread hx]
    exact skipOnKey_runsCarry s r b _ _
  | addImm x kk =>
    have hx : r ≠ x := by simpa [Instr.readsReg] using h
    simp only [exec, execAddImm, hread hx]
    exact (Carries.start.setReg x _).next
  | ldReg x y =>
    have hy : r ≠ y := by simpa [Instr.readsReg] using h
    simp only [exec, execLdReg, hread hy]
    exact (Carries.start.setReg x _).next
  | shr x y | shl x y =>
    have hx : r ≠ x := by simpa [Instr.readsReg] using h
    simp only [exec, execShr, execShl, hread hx]
    exact (Carries.start.setRegFlag x _ _).next
  | ldDtVx x =>
    have hx : r ≠ x := by simpa [Instr.readsReg] using h
    simp only [exec, execLdDtVx, hread hx]
    exact (Carries.start.map (·.setDelay _) rfl rfl).next
  | ldStVx x =>
    have hx : r ≠ x := by simpa [Instr.readsReg] using h
    simp only [exec, execLdStVx, hread hx]
    exact (Carries.start.map (·.setSound _) rfl rfl).next
  | addI x | ldF x =>
    have hx : r ≠ x := by simpa [Instr.readsReg] using h
    simp only [exec, execAddI, execLdF, State.regWord, hread hx]
    exact (Carries.start.map (·.setIndex _) rfl rfl).next
  | ldB x =>
    have hx : r ≠ x := by simpa [Instr.readsReg] using h
    simp only [exec, execLdB, hread hx]
    exact (Carries.start.map (·.setMem _) rfl rfl).guarded _
  | storeRegs x =>
    have hx : x.toNat < r.toNat := by simpa [Instr.readsReg] using h
    simp only [exec, execStoreRegs, s.regsUpTo_setReg b hx]
    exact (Carries.start.map (·.setMem _) rfl rfl).guarded _
  | seReg x y | sneReg x y =>
    obtain ⟨hx, hy⟩ : r ≠ x ∧ r ≠ y := by simpa [Instr.readsReg] using h
    simp only [exec, execSeReg, execSneReg, hread hx, hread hy]
    exact (Carries.start.skipIf _).next
  | orReg x y | andReg x y | xorReg x y =>
    obtain ⟨hx, hy⟩ : r ≠ x ∧ r ≠ y := by simpa [Instr.readsReg] using h
    simp only [exec, execOrReg, execAndReg, execXorReg, hread hx, hread hy]
    exact (Carries.start.setReg x _).next
  | addReg x y | subReg x y | subnReg x y =>
    obtain ⟨hx, hy⟩ : r ≠ x ∧ r ≠ y := by simpa [Instr.readsReg] using h
    simp only [exec, execAddReg, execSubReg, execSubnReg, hread hx, hread hy]
    exact (Carries.start.setRegFlag x _ _).next
  | drw x y n =>
    obtain ⟨hx, hy⟩ : r ≠ x ∧ r ≠ y := by simpa [Instr.readsReg] using h
    simp only [exec, execDrw, hread hx, hread hy]
    exact (Carries.start.afterBlit _).guarded _

/-! ### The statements of 10_state.md -/

/-- Settles O58: every event keeps the invariant, which does not speak of the schedule. -/
theorem invariantIsKeptByEveryStep : Obligations.InvariantIsKeptByEveryStep :=
  fun _ _ => step_preserves (fun _ _ hu => ⟨hu.memWf, hu.pcLe, hu.stackLive⟩)
    (fun e _ _ => handleEvent_inv e)

/-- Settles O51: no kind of effect writes a register that the matrix does not mark. -/
theorem registersWrittenAreThoseOfTheMatrix : Obligations.RegistersWrittenAreThoseOfTheMatrix :=
  fun _ _ _ _ h hr => (effect_of_exec h).reg_eq hr

/-- Settles O52: the register that is not read is overwritten in both runs or carried along. -/
theorem registersReadAreThoseOfTheMatrix : Obligations.RegistersReadAreThoseOfTheMatrix := by
  intro i s r b h
  obtain ⟨t, t', he, he', hc⟩ := exec_runsCarry i s r b h
  exact ⟨t, t', he, he', hc.agree⟩

/-- Settles O53: each of the five arithmetic instructions stores a flag byte in `VF` last, and so does a
draw that does not fault. -/
theorem flagIsZeroOrOne : Obligations.FlagIsZeroOrOne := by
  intro i s t x y n h hi ht
  simp only [List.mem_cons, List.not_mem_nil, or_false] at hi
  rcases hi with rfl | rfl | rfl | rfl | rfl | rfl
  iterate 5
    · cases h
      exact State.flag_setRegFlag ..
  · rcases exec_drw_cases x y n s with ⟨_, he⟩ | ⟨_, he⟩
    · cases he.symm.trans h
      exact absurd rfl (ht _)
    · cases he.symm.trans h
      exact State.flag_afterBlit ..

/-- Settles O55: the two kinds of effect that change the screen are those of `00E0` and `Dxyn`. -/
theorem onlyDrawAndClearWriteTheScreen : Obligations.OnlyDrawAndClearWriteTheScreen :=
  fun _ _ _ px py h hne =>
    (effect_of_exec h).display_cases.resolve_left fun hd => hne (by rw [hd])

/-- Settles O56, part by part of the state. -/
theorem systemStateIsWrittenByItsWriters : Obligations.SystemStateIsWrittenByItsWriters := by
  intro i s t h
  have he := effect_of_exec h
  exact ⟨he.index_cases.resolve_left, he.stack_cases.resolve_left, he.sp_cases.resolve_left,
    he.delay_cases.resolve_left, he.sound_cases.resolve_left, he.pc_cases.resolve_left,
    he.keypad_eq, he.opcode_eq, he.env_eq⟩

/-- Settles O57: a Cycle event writes no key and, of the host's side, its record alone; and every
event keeps the parameters. -/
theorem cycleLeavesTheHostsSide : Obligations.CycleLeavesTheHostsSide := by
  refine ⟨fun s r t hdue h => ?_, fun s t h => ?_⟩
  · have hc : cycle r = .next t := step_of_cycleDue hdue ▸ h
    have hk : r.keypad = s.keypad := by
      rcases hdue with ⟨_, rfl⟩ | ⟨es, _, rfl⟩ <;> rfl
    exact ⟨(cycle_keypad hc).trans hk, by rw [cycle_env hc]⟩
  · exact step_preserves (P := fun u => u.env.config = s.env.config) (fun _ _ hu => hu)
      (fun e _ _ hu hut => (handleEvent_config e hut).trans hu) rfl h

/-- Settles O59. -/
theorem invariantHoldsAtReset : Obligations.InvariantHoldsAtReset := reset_inv

end Sys2Proof.Machine
end

section
/-! SUPPORT. The statements of 20_memory.md: an instruction's two bytes decode back to it (R46), a store
is seen by the very next fetch (R54), and the stores alone write memory (R45, R48). -/

namespace Sys2Proof

/-! ### The round trip of the encoder -/

/-- The decoder reads every instruction back from its word: each level of the dispatch finds the key
that the encoder packed, and then the packed fields (R61, R64, R65). -/
theorem decodeWord_encode (i : Instr) : decodeWord (encode i) = .ok i := by
  cases i with
  | jp _ | call _ | ldI _ | jpV0 _ => simp [encode, decodeWord]
  | seImm _ _ | sneImm _ _ | ldImm _ _ | addImm _ _ | rnd _ _ => simp [encode, decodeWord]
  | seReg _ _ | sneReg _ _ | drw _ _ _ => simp [encode, decodeWord]
  | cls | ret => simp [encode, decodeWord, decodeClass0]
  | ldReg _ _ | orReg _ _ | andReg _ _ | xorReg _ _ | addReg _ _ | subReg _ _ | shr _ _ | subnReg _ _
  | shl _ _ => simp [encode, decodeWord, decodeClass8]
  | skp _ | sknp _ => simp [encode, decodeWord, decodeClassE]
  | ldVxDt _ | ldVxK _ | ldDtVx _ | ldStVx _ | addI _ | ldF _ | ldB _ | storeRegs _ | loadRegs _ =>
    simp [encode, decodeWord, decodeClassF]

/-- Decoding bytes that begin with a legal word takes that word's two bytes and no more (R46, R60). -/
theorem decode_bytesOfWord_append {w : Word} {i : Instr} (h : decodeWord w = .ok i)
    (rest : List Byte) : decode (bytesOfWord w ++ rest) = .ok (i, rest) := by
  simp only [bytesOfWord, List.cons_append, List.nil_append, decode, wordOfBytes_bytesOfWord, h]

/-- Settles O1: the word decodes back, and the word's bytes hold that word. -/
theorem decodeOfEncodeIsTheInstruction : Obligations.DecodeOfEncodeIsTheInstruction :=
  fun i rest => ⟨decodeWord_encode i, decode_bytesOfWord_append (decodeWord_encode i) rest⟩

end Sys2Proof

namespace Sys2Proof.Machine

/-! ### What a store leaves to be read -/

/-- Storing bytes changes only the addresses that the bytes cover (R48). -/
theorem Memory.range_of_read_writeBytes_ne {m : Memory} {a j : Nat} {bs : List Byte}
    (h : (m.writeBytes a bs).read j ≠ m.read j) : a ≤ j ∧ j < a + bs.length := by
  rw [Memory.read_writeBytes] at h
  split at h
  · next hle =>
    refine ⟨hle, Nat.lt_of_not_le fun hge => h ?_⟩
    rw [List.getElem?_eq_none (by omega), Option.getD_none]
  · exact absurd rfl h

/-- After `V[0]` to `V[x]` were stored from `a` upward, the byte at `a + k` is `V[k]` (R124). -/
theorem Memory.read_writeBytes_regsUpTo (m : Memory) (s : State) {x : RegIdx} (a : Nat) {k : Nat}
    (hk : k ≤ x.toNat) :
    (m.writeBytes a (s.regsUpTo x)).read (a + k) = s.reg (BitVec.ofNat 4 k) := by
  rw [Memory.read_writeBytes, if_pos (Nat.le_add_right a k), Nat.add_sub_cancel_left,
    State.getElem?_regsUpTo, if_pos hk, Option.getD_some]

/-- After `V[0]` to `V[x]`, with `x` at least 1, were stored at `pc`, the word there is `V0 V1`
(R46, R124). -/
theorem State.nextWord_storedRegs {s : State} {x : RegIdx} (hx : 1 ≤ x.toNat)
    (hpc : s.index = s.pc) :
    (s.setMem (s.mem.writeBytes s.index.toNat (s.regsUpTo x))).nextWord =
      wordOfBytes (s.reg 0) (s.reg 1) := by
  have hhigh := Memory.read_writeBytes_regsUpTo s.mem s s.index.toNat x.toNat.zero_le
  have hlow := Memory.read_writeBytes_regsUpTo s.mem s s.index.toNat hx
  rw [Nat.add_zero] at hhigh
  rw [State.nextWord, State.setMem_pc, State.setMem_mem, ← hpc, hhigh, hlow]
  rfl

/-- Memory after an instruction: as it was, or with the bytes of a store inside memory (R45, R48). -/
theorem Effect.mem_cases {i : Instr} {s t : State} (h : Effect s i t) : t.mem = s.mem ∨
    ∃ bs : List Byte, t.mem = s.mem.writeBytes s.index.toNat bs ∧
      s.index.toNat + bs.length ≤ 4096 ∧
      ((∃ x, i = .ldB x ∧ bs.length = 3) ∨ ∃ x, i = .storeRegs x ∧ bs.length = x.toNat + 1) := by
  cases h with
  | bytesStored bs hi hfit => exact .inr ⟨bs, rfl, hfit, hi⟩
  | _ => exact .inl rfl

/-! ### The next step at a legal word -/

/-- With no event scheduled, where the host may issue a Cycle event and the word at `pc` is legal, the
step executes that word's instruction (R156; assumption log 3). -/
theorem step_of_decodeWord {s : State} {i : Instr} (hev : s.env.events = []) (hmay : MayCycle s)
    (hpc : s.pc.toNat ≤ 0x0FFE) (hi : decodeWord s.nextWord = .ok i) :
    step s = exec i (s.markStarted.fetched s.nextWord) := by
  rw [step_of_cycleDue (.inl ⟨hev, rfl⟩), cycle_of_mayCycle hmay]
  rcases runInstruction_cases s.markStarted with ⟨hout, _⟩ | ⟨_, ⟨e, he, _⟩ | ⟨j, hj, hrun⟩⟩
  · exact absurd (Nat.le_trans hout hpc) (by decide)
  · cases he.symm.trans hi
  · cases hj.symm.trans hi
    exact hrun

/-! ### The statements of 20_memory.md -/

/-- Settles O44: the two bytes at `pc` after the store are `V0` and `V1`. -/
theorem storedCodeIsFetchedNext : Obligations.StoredCodeIsFetchedNext := by
  intro x s i hx hpc hfit hev hmay hi
  refine ⟨_, exec_storeRegs_inside hfit, ?_⟩
  have hword := State.nextWord_storedRegs hx hpc
  have hle : s.pc.toNat ≤ 0x0FFE := by rw [← hpc]; omega
  rw [← hword] at hi ⊢
  exact step_of_decodeWord hev hmay hle hi

/-- Settles O54: only the effect of a store changes memory, and only where its bytes land. -/
theorem onlyStoresWriteMemory : Obligations.OnlyStoresWriteMemory := by
  intro i s t a h hne
  rcases (effect_of_exec h).mem_cases with hmem | ⟨bs, hmem, hfit, hi⟩
  · exact absurd (by rw [hmem]) hne
  · rw [hmem] at hne
    obtain ⟨hlo, hhi⟩ := Memory.range_of_read_writeBytes_ne hne
    refine ⟨by omega, hlo, ?_⟩
    rcases hi with ⟨x, hx, hlen⟩ | ⟨x, hx, hlen⟩
    · exact .inl ⟨x, hx, by omega⟩
    · exact .inr ⟨x, hx, by omega⟩

end Sys2Proof.Machine
end

section
/-! SUPPORT. The statements of 30_encoding.md: what the decoder answers for every word (R64, R65, R70,
R71), which row of the opcode map a word is in (R66), and the bits that no level examines (R68). -/

namespace Sys2Proof

/-! ### What the decoder answers for a word -/

/-- The table of R71: the words without a handler. -/
def InIllegalTable (w : Word) : Prop :=
  (classOf w = 0x0 ∧ fieldKK w ∉ [0xE0, 0xEE]) ∨
  (classOf w = 0x8 ∧ fieldN w ∈ [0x8, 0x9, 0xA, 0xB, 0xC, 0xD, 0xF]) ∨
  (classOf w = 0xE ∧ fieldKK w ∉ [0x9E, 0xA1]) ∨
  (classOf w = 0xF ∧ fieldKK w ∉ [0x07, 0x0A, 0x15, 0x18, 0x1E, 0x29, 0x33, 0x55, 0x65])

/-- What a dispatch level can answer for the word `w`, where `illegal` says that it has no handler: an
instruction that keeps every examined bit of the word, or a refusal. -/
inductive DecodeOutcome (w : Word) (illegal : Prop) : Except DecodeReject Instr → Prop
  /-- The word has a handler. -/
  | legal {i : Instr} (henc : encode i = w &&& examinedMask i) (hlegal : ¬illegal) :
      DecodeOutcome w illegal (.ok i)
  /-- The word has none. -/
  | illegal {e : DecodeReject} (hillegal : illegal) : DecodeOutcome w illegal (.error e)

section
variable {w : Word} {illegal : Prop} {r : Except DecodeReject Instr}

theorem DecodeOutcome.encode_eq {i : Instr} (h : DecodeOutcome w illegal (.ok i)) :
    encode i = w &&& examinedMask i := by
  cases h with
  | legal henc => exact henc

theorem DecodeOutcome.exists_error_iff (h : DecodeOutcome w illegal r) :
    (∃ e, r = .error e) ↔ illegal := by
  cases h with
  | legal _ hlegal => exact iff_of_false (fun ⟨_, he⟩ => nomatch he) hlegal
  | illegal hillegal => exact iff_of_true ⟨_, rfl⟩ hillegal

end

/-! The fields that a handler takes, packed under the key that selected it, are the word again. -/

section
variable {w : Word} {c : BitVec 4}

theorem packNNN_of_class (hc : (classOf w).toNat = c.toNat) :
    packNNN c (fieldNNN w) = w &&& 0xFFFF := by
  rw [and_FFFF, ← BitVec.eq_of_toNat_eq hc, packNNN_fields]

theorem packXKK_of_class (hc : (classOf w).toNat = c.toNat) :
    packXKK c (fieldX w) (fieldKK w) = w &&& 0xFFFF := by
  rw [and_FFFF, ← BitVec.eq_of_toNat_eq hc, packXKK_fields]

theorem packNibbles_of_class (hc : (classOf w).toNat = c.toNat) :
    packNibbles c (fieldX w) (fieldY w) (fieldN w) = w &&& 0xFFFF := by
  rw [and_FFFF, ← BitVec.eq_of_toNat_eq hc, packNibbles_fields]

theorem packNibbles_zero_of_class (hc : (classOf w).toNat = c.toNat) :
    packNibbles c (fieldX w) (fieldY w) 0 = w &&& 0xFFF0 := by
  rw [and_FFF0, BitVec.eq_of_toNat_eq hc]

theorem packXKK_of_class_key {kk : Byte} (hc : classOf w = c) (hk : (fieldKK w).toNat = kk.toNat) :
    packXKK c (fieldX w) kk = w &&& 0xFFFF := by
  rw [← packXKK_of_class (congrArg BitVec.toNat hc), BitVec.eq_of_toNat_eq hk]

theorem packNibbles_of_class_key {n : BitVec 4} (hc : classOf w = c)
    (hn : (fieldN w).toNat = n.toNat) : packNibbles c (fieldX w) (fieldY w) n = w &&& 0xFFFF := by
  rw [← packNibbles_of_class (congrArg BitVec.toNat hc), BitVec.eq_of_toNat_eq hn]

theorem packXKK_zero_of_class_key {kk : Byte} (hc : classOf w = c)
    (hk : (fieldKK w).toNat = kk.toNat) : packXKK c 0 kk = w &&& 0xF0FF :=
  ((and_F0FF_eq_iff w c kk).mpr ⟨hc, BitVec.eq_of_toNat_eq hk⟩).symm

end

/-! The second level, one lemma for each of its four tables (R65). -/

section
variable {w : Word}

theorem decodeClass0_outcome (hc : classOf w = 0x0) :
    DecodeOutcome w (fieldKK w ∉ [0xE0, 0xEE]) (decodeClass0 w) := by
  unfold decodeClass0
  split
  iterate 2
    · next hk => exact .legal (packXKK_zero_of_class_key hc hk) (by simp [← BitVec.toNat_inj, hk])
  · exact .illegal (by simp_all [← BitVec.toNat_inj])

theorem decodeClass8_outcome (hc : classOf w = 0x8) :
    DecodeOutcome w (fieldN w ∈ [0x8, 0x9, 0xA, 0xB, 0xC, 0xD, 0xF]) (decodeClass8 w) := by
  have hlt := (fieldN w).isLt
  unfold decodeClass8
  split
  iterate 9
    · next hn => exact .legal (packNibbles_of_class_key hc hn) (by simp [← BitVec.toNat_inj, hn])
  · exact .illegal (by simp_all [← BitVec.toNat_inj]; omega)

theorem decodeClassE_outcome (hc : classOf w = 0xE) :
    DecodeOutcome w (fieldKK w ∉ [0x9E, 0xA1]) (decodeClassE w) := by
  unfold decodeClassE
  split
  iterate 2
    · next hk => exact .legal (packXKK_of_class_key hc hk) (by simp [← BitVec.toNat_inj, hk])
  · exact .illegal (by simp_all [← BitVec.toNat_inj])

theorem decodeClassF_outcome (hc : classOf w = 0xF) :
    DecodeOutcome w (fieldKK w ∉ [0x07, 0x0A, 0x15, 0x18, 0x1E, 0x29, 0x33, 0x55, 0x65])
      (decodeClassF w) := by
  unfold decodeClassF
  split
  iterate 9
    · next hk => exact .legal (packXKK_of_class_key hc hk) (by simp [← BitVec.toNat_inj, hk])
  · exact .illegal (by simp_all [← BitVec.toNat_inj])

end

/-- A class with a handler of its own is in no row of the table (R64, R71). -/
theorem not_inIllegalTable {w : Word} (h : (classOf w).toNat ∉ [0x0, 0x8, 0xE, 0xF]) :
    ¬InIllegalTable w := by
  simp [InIllegalTable, ← BitVec.toNat_inj] at h ⊢
  omega

/-- What the decoder answers for every word: the first level selects a handler or a second-level
table (R64, R65). -/
theorem decodeWord_outcome (w : Word) : DecodeOutcome w (InIllegalTable w) (decodeWord w) := by
  have hlt := (classOf w).isLt
  unfold decodeWord
  split
  -- Class 0.
  · next hc =>
    have hc : classOf w = 0x0 := BitVec.eq_of_toNat_eq hc
    simpa [InIllegalTable, hc] using decodeClass0_outcome hc
  -- Classes 1 and 2.
  iterate 2
    · next hc => exact .legal (packNNN_of_class hc) (not_inIllegalTable (by simp [hc]))
  -- Classes 3 and 4.
  iterate 2
    · next hc => exact .legal (packXKK_of_class hc) (not_inIllegalTable (by simp [hc]))
  -- Class 5.
  · next hc => exact .legal (packNibbles_zero_of_class hc) (not_inIllegalTable (by simp [hc]))
  -- Classes 6 and 7.
  iterate 2
    · next hc => exact .legal (packXKK_of_class hc) (not_inIllegalTable (by simp [hc]))
  -- Class 8.
  · next hc =>
    have hc : classOf w = 0x8 := BitVec.eq_of_toNat_eq hc
    simpa [InIllegalTable, hc] using decodeClass8_outcome hc
  -- Class 9.
  · next hc => exact .legal (packNibbles_zero_of_class hc) (not_inIllegalTable (by simp [hc]))
  -- Classes A and B.
  iterate 2
    · next hc => exact .legal (packNNN_of_class hc) (not_inIllegalTable (by simp [hc]))
  -- Class C.
  · next hc => exact .legal (packXKK_of_class hc) (not_inIllegalTable (by simp [hc]))
  -- Class D.
  · next hc => exact .legal (packNibbles_of_class hc) (not_inIllegalTable (by simp [hc]))
  -- Class E.
  · next hc =>
    have hc : classOf w = 0xE := BitVec.eq_of_toNat_eq hc
    simpa [InIllegalTable, hc] using decodeClassE_outcome hc
  -- Class F.
  · have hc : classOf w = 0xF := BitVec.eq_of_toNat_eq (by simp_all; omega)
    simpa [InIllegalTable, hc] using decodeClassF_outcome hc

/-- An instruction that was decoded encodes to its word but for the unexamined bits (R68, R69). -/
theorem encode_of_decodeWord {w : Word} {i : Instr} (h : decodeWord w = .ok i) :
    encode i = w &&& examinedMask i :=
  (h ▸ decodeWord_outcome w).encode_eq

/-! ### The rows of the opcode map -/

/-- The instruction of `i`'s row of the opcode map with the fields of the word `w` (R61, R66). -/
def Instr.withFields (i : Instr) (w : Word) : Instr :=
  match i with
  | .cls => .cls
  | .ret => .ret
  | .jp _ => .jp (fieldNNN w)
  | .call _ => .call (fieldNNN w)
  | .seImm .. => .seImm (fieldX w) (fieldKK w)
  | .sneImm .. => .sneImm (fieldX w) (fieldKK w)
  | .seReg .. => .seReg (fieldX w) (fieldY w)
  | .ldImm .. => .ldImm (fieldX w) (fieldKK w)
  | .addImm .. => .addImm (fieldX w) (fieldKK w)
  | .ldReg .. => .ldReg (fieldX w) (fieldY w)
  | .orReg .. => .orReg (fieldX w) (fieldY w)
  | .andReg .. => .andReg (fieldX w) (fieldY w)
  | .xorReg .. => .xorReg (fieldX w) (fieldY w)
  | .addReg .. => .addReg (fieldX w) (fieldY w)
  | .subReg .. => .subReg (fieldX w) (fieldY w)
  | .shr .. => .shr (fieldX w) (fieldY w)
  | .subnReg .. => .subnReg (fieldX w) (fieldY w)
  | .shl .. => .shl (fieldX w) (fieldY w)
  | .sneReg .. => .sneReg (fieldX w) (fieldY w)
  | .ldI _ => .ldI (fieldNNN w)
  | .jpV0 _ => .jpV0 (fieldNNN w)
  | .rnd .. => .rnd (fieldX w) (fieldKK w)
  | .drw .. => .drw (fieldX w) (fieldY w) (fieldN w)
  | .skp _ => .skp (fieldX w)
  | .sknp _ => .sknp (fieldX w)
  | .ldVxDt _ => .ldVxDt (fieldX w)
  | .ldVxK _ => .ldVxK (fieldX w)
  | .ldDtVx _ => .ldDtVx (fieldX w)
  | .ldStVx _ => .ldStVx (fieldX w)
  | .addI _ => .addI (fieldX w)
  | .ldF _ => .ldF (fieldX w)
  | .ldB _ => .ldB (fieldX w)
  | .storeRegs _ => .storeRegs (fieldX w)
  | .loadRegs _ => .loadRegs (fieldX w)

@[simp] theorem rowMask_withFields (i : Instr) (w : Word) : rowMask (i.withFields w) = rowMask i := by
  cases i <;> rfl

@[simp] theorem rowMatch_withFields (i : Instr) (w : Word) :
    rowMatch (i.withFields w) = rowMatch i := by
  cases i <;> rfl

/-- The mask of every row has the whole class (R64, R66). -/
theorem classOf_rowMask (i : Instr) : classOf (rowMask i) = 0xF := by
  cases i <;> (simp only [rowMask]; decide)

section
variable {w m : Word}

theorem classOf_of_row {i : Instr} (h : w &&& rowMask i = rowMatch i) :
    classOf w = classOf (rowMatch i) := by
  rw [← h, classOf_and, classOf_rowMask]
  exact (and_15 _).symm

theorem fieldKK_of_and_eq (h : w &&& 0xF0FF = m) : fieldKK w = fieldKK m := by
  rw [← h, fieldKK_and]
  exact (and_255 _).symm

theorem fieldN_of_and_eq (h : w &&& 0xF00F = m) : fieldN w = fieldN m := by
  rw [← h, fieldN_and]
  exact (and_15 _).symm

end

open Machine in
/-- Every row of the opcode map: a word that meets the row's mask and match decodes to the row's
instruction with the word's fields (R66). -/
theorem encodes_row (i : Instr) : Encodes (rowMask i) (rowMatch i) i.withFields := by
  intro w h
  have hc := classOf_of_row h
  cases i with
  | jp _ | call _ | seImm _ _ | sneImm _ _ | seReg _ _ | ldImm _ _ | addImm _ _ | sneReg _ _ | ldI _
  | jpV0 _ | rnd _ _ | drw _ _ _ =>
    simp [decodeWord, hc, classOf_toNat, rowMatch, Instr.withFields]
  | cls | ret =>
    have hk := fieldKK_of_and_eq h
    simp [decodeWord, decodeClass0, hc, hk, classOf_toNat, fieldKK_toNat, rowMatch,
      Instr.withFields]
  | ldReg _ _ | orReg _ _ | andReg _ _ | xorReg _ _ | addReg _ _ | subReg _ _ | shr _ _ | subnReg _ _
  | shl _ _ =>
    have hn := fieldN_of_and_eq h
    simp [decodeWord, decodeClass8, hc, hn, classOf_toNat, fieldN_toNat, rowMatch, Instr.withFields]
  | skp _ | sknp _ =>
    have hk := fieldKK_of_and_eq h
    simp [decodeWord, decodeClassE, hc, hk, classOf_toNat, fieldKK_toNat, rowMatch,
      Instr.withFields]
  | ldVxDt _ | ldVxK _ | ldDtVx _ | ldStVx _ | addI _ | ldF _ | ldB _ | storeRegs _ | loadRegs _ =>
    have hk := fieldKK_of_and_eq h
    simp [decodeWord, decodeClassF, hc, hk, classOf_toNat, fieldKK_toNat, rowMatch,
      Instr.withFields]

open Laws.EncodedInRow in
/-- The encoder's word lies in the instruction's own row (R66). -/
theorem encode_and_rowMask : ∀ i : Instr, encode i &&& rowMask i = rowMatch i
  | .cls => cls | .ret => ret | .jp nnn => jp nnn | .call nnn => call nnn
  | .seImm x kk => seImm x kk | .sneImm x kk => sneImm x kk | .seReg x y => seReg x y
  | .ldImm x kk => ldImm x kk | .addImm x kk => addImm x kk
  | .ldReg x y => ldReg x y | .orReg x y => orReg x y | .andReg x y => andReg x y
  | .xorReg x y => xorReg x y | .addReg x y => addReg x y | .subReg x y => subReg x y
  | .shr x y => shr x y | .subnReg x y => subnReg x y | .shl x y => shl x y
  | .sneReg x y => sneReg x y | .ldI nnn => ldI nnn | .jpV0 nnn => jpV0 nnn
  | .rnd x kk => rnd x kk | .drw x y n => drw x y n | .skp x => skp x | .sknp x => sknp x
  | .ldVxDt x => ldVxDt x | .ldVxK x => ldVxK x | .ldDtVx x => ldDtVx x | .ldStVx x => ldStVx x
  | .addI x => addI x | .ldF x => ldF x | .ldB x => ldB x
  | .storeRegs x => storeRegs x | .loadRegs x => loadRegs x

/-- A word that decodes lies in the row of its instruction: the row's bits are among those that the
decoder keeps (R66). -/
theorem and_rowMask_of_decodeWord {w : Word} {i : Instr} (h : decodeWord w = .ok i) :
    w &&& rowMask i = rowMatch i := by
  rw [← encode_and_rowMask, encode_of_decodeWord h, BitVec.and_assoc, examinedMask_and_rowMask]

/-! ### The statements of 30_encoding.md -/

/-- Settles O2: every answer of the dispatcher keeps the examined bits. -/
theorem encodeOfDecodeClearsUnexaminedBits : Obligations.EncodeOfDecodeClearsUnexaminedBits :=
  fun _ _ => encode_of_decodeWord

/-- Settles O3: a word that decodes lies in its instruction's row, and one that lies in a row decodes
into it. -/
theorem decodeFollowsTheOpcodeMap : Obligations.DecodeFollowsTheOpcodeMap := by
  refine fun w i => ⟨fun ⟨j, hj, hmask, hmatch⟩ => ?_, fun h => ?_⟩
  · rw [← hmask, ← hmatch]
    exact and_rowMask_of_decodeWord hj
  · exact ⟨i.withFields w, encodes_row i w h, rowMask_withFields i w, rowMatch_withFields i w⟩

/-- Settles O4: `InIllegalTable` is the table of the statement. -/
theorem illegalWordsAreThoseOfTheTable : Obligations.IllegalWordsAreThoseOfTheTable :=
  fun w => (decodeWord_outcome w).exists_error_iff

/-- Settles O6: the dispatch of classes 0, 5 and 9 reads no such bit, and the meanings of the two
shifts do not use `y`. -/
theorem unexaminedBitsChangeNothing : Obligations.UnexaminedBitsChangeNothing := by
  refine ⟨fun x x' kk => ?_, fun x y n n' => ⟨?_, ?_⟩, fun x y y' s => ?_⟩
  · simp [decodeWord, decodeClass0]
  · simp [decodeWord]
  · simp [decodeWord]
  · exact ⟨_, _, _, _, decodeWord_encode (.shr x y), decodeWord_encode (.shr x y'), rfl,
      decodeWord_encode (.shl x y), decodeWord_encode (.shl x y'), rfl⟩

/-- Settles O38: every instruction has one of the kinds of effect, and each is a next state. -/
theorem everyInstructionAnswersANextState : Obligations.EveryInstructionAnswersANextState :=
  fun i s => (Machine.exec_effect i s).imp fun _ h => h.1

/-- Settles O5: the decoder evaluated at six words. -/
theorem sampleWordsDecodeRight : Obligations.SampleWordsDecodeRight := by
  unfold Obligations.SampleWordsDecodeRight
  decide

end Sys2Proof
end

section
/-! SUPPORT. The statements of 40_control_flow.md: what each control-flow instruction does and leaves
(R81 to R89), and the jump to its own address, whose second turn already changes nothing (R165). -/

namespace Sys2Proof.Machine

/-! ### Frames -/

theorem State.setPc_unchanged (s : State) (w : Word) : Unchanged [.pc] s (s.setPc w) := by
  intro p hp
  cases p <;> simp_all [Part.same]

theorem State.setDisplay_unchanged (s : State) (d : Display) :
    Unchanged [.display] s (s.setDisplay d) := by
  intro p hp
  cases p <;> simp_all [Part.same]

/-- A skip changes `pc` alone (R80). -/
theorem State.skipIf_unchanged (s : State) (c : Bool) : Unchanged [.pc] s (s.skipIf c) :=
  s.skipIf_eq c ▸ s.setPc_unchanged _

@[simp] theorem State.skipIf_reg (s : State) (c : Bool) (r : RegIdx) :
    (s.skipIf c).reg r = s.reg r := by
  rw [State.skipIf_eq, State.setPc_reg]

/-- A return moves `pc` and `sp` alone: the entry it takes stays in its place (R16, R82). -/
theorem State.return_unchanged (s : State) (w : Word) (n : Fin 17) :
    Unchanged [.sp, .pc] s { s with pc := w, sp := n } := by
  intro p hp
  cases p <;> simp_all [Part.same]

theorem State.call_unchanged (s : State) (st : Vector Word 16) (n : Fin 17) (w : Word) :
    Unchanged [.sp, .pc, .stack] s { s with stack := st, sp := n, pc := w } := by
  intro p hp
  cases p <;> simp_all [Part.same]

/-! ### The new `pc` -/

/-- A skip on equality: `pc` gets an extra 2 when the operands are equal (R85, R87). -/
theorem State.skipIf_beq_pc (s : State) (a b : Byte) :
    (s.skipIf (a == b)).pc = if a = b then s.pc + 2 else s.pc := by
  simp only [State.skipIf_eq, State.setPc_pc, beq_iff_eq]

/-- A skip on difference: `pc` gets an extra 2 when the operands differ (R86, R88). -/
theorem State.skipIf_bne_pc (s : State) (a b : Byte) :
    (s.skipIf (a != b)).pc = if a = b then s.pc else s.pc + 2 := by
  simp only [State.skipIf_eq, State.setPc_pc, bne_iff_ne, ite_not]

@[simp] theorem addrOperand_toNat (nnn : Addr) : (addrOperand nnn).toNat = nnn.toNat :=
  BitVec.toNat_setWidth_of_le (by decide)

@[simp] theorem State.regWord_toNat (s : State) (x : RegIdx) :
    (s.regWord x).toNat = (s.reg x).toNat :=
  BitVec.toNat_setWidth_of_le (by decide)

/-- The target of the offset jump is the true sum: it does not reach 2^16 (R89). -/
theorem addrOperand_add_regWord_toNat (nnn : Addr) (s : State) (x : RegIdx) :
    (addrOperand nnn + s.regWord x).toNat = nnn.toNat + (s.reg x).toNat := by
  have hn := nnn.isLt
  have hr := (s.reg x).isLt
  rw [BitVec.toNat_add, addrOperand_toNat, State.regWord_toNat]
  omega

@[simp] theorem pixel_blankDisplay (px : Fin 64) (py : Fin 32) :
    Display.pixel blankDisplay px py = false := by
  simp [Display.pixel, blankDisplay]

/-! ### A jump to its own address -/

/-- `s` after one turn of a jump to its own address: the jump's word is in `current_opcode`, and `pc`
is back. -/
def State.selfJumped (s : State) : State := (s.markStarted.fetched s.nextWord).setPc s.pc

/-- A second turn changes nothing (R165). -/
theorem State.selfJumped_selfJumped (s : State) : s.selfJumped.selfJumped = s.selfJumped := rfl

theorem State.selfJumped_unchanged (s : State) :
    Unchanged [.opcode, .status, .env] s s.selfJumped := by
  intro p hp
  cases p <;> simp_all [Part.same, State.selfJumped]

/-- A turn ends with the status `OK`, so the host may issue the next Cycle event (R166). -/
theorem State.selfJumped_mayCycle {s : State} (h : MayCycle s) : MayCycle s.selfJumped := by
  obtain ⟨_, hloader⟩ := h
  exact ⟨(fun _ _ hf => nomatch hf), hloader⟩

/-- A Cycle event at a jump to its own address is one turn (R83, R165). -/
theorem step_selfJump {s : State} {nnn : Addr} (hev : s.env.events = []) (hmay : MayCycle s)
    (hpc : s.pc.toNat ≤ 0x0FFE) (hself : s.pc.toNat = nnn.toNat)
    (hjp : decodeWord s.nextWord = .ok (.jp nnn)) : step s = .next s.selfJumped := by
  have htarget : addrOperand nnn = s.pc :=
    BitVec.eq_of_toNat_eq ((addrOperand_toNat nnn).trans hself.symm)
  rw [step_of_decodeWord hev hmay hpc hjp, State.selfJumped, ← htarget]
  rfl

/-- A run that has come to a state whose step leaves it as it is stays there. -/
theorem run_of_step_eq_self {t : State} (h : step t = .next t) (n : Nat) :
    Host.Core.run ⟨State, Fault, Refusal, step, State.reset⟩ n t = .next t := by
  induction n with
  | zero => rfl
  | succ n ih => rw [run_succ, h]; exact ih

/-! ### The statements of 40_control_flow.md -/

/-- Settles O43: the first turn leads to a state in which every further turn leaves all as it is. -/
theorem selfJumpRepeatsForEver : Obligations.SelfJumpRepeatsForEver := by
  intro nnn s n hev hmay hpc hself hjp
  have hfirst : step s = .next s.selfJumped := step_selfJump hev hmay hpc hself hjp
  have hagain : step s.selfJumped = .next s.selfJumped.selfJumped :=
    step_selfJump hev (State.selfJumped_mayCycle hmay) hpc hself hjp
  rw [State.selfJumped_selfJumped] at hagain
  refine ⟨s.selfJumped, ?_, rfl, rfl, fun _ _ => rfl, s.selfJumped_unchanged⟩
  rw [run_succ, hfirst]
  exact run_of_step_eq_self hagain n

/-- Settles O7: the screen is the blank one. -/
theorem clearScreenTurnsEveryPixelOff : Obligations.ClearScreenTurnsEveryPixelOff :=
  ⟨encodes_row .cls, fun s =>
    ⟨_, rfl, pixel_blankDisplay, fun _ _ => rfl, s.setDisplay_unchanged blankDisplay⟩⟩

/-- Settles O8, by the depth of the stack. -/
theorem returnPopsOrUnderflows : Obligations.ReturnPopsOrUnderflows := by
  refine ⟨encodes_row .ret, fun s => ⟨fun h => ?_, fun h => ?_⟩⟩
  · obtain ⟨n, hn, he⟩ := exec_ret_of_pos h
    exact ⟨_, he, hn, rfl, fun _ _ => rfl, s.return_unchanged _ n⟩
  · rw [exec_ret_of_zero h]
    exact raise_raises _ s

/-- Settles O9: the target is the zero-extended `nnn`. -/
theorem jumpLoadsTheAddress : Obligations.JumpLoadsTheAddress :=
  ⟨encodes_row (.jp 0), fun nnn s =>
    ⟨_, rfl, addrOperand_toNat nnn, fun _ _ => rfl, s.setPc_unchanged _⟩⟩

/-- Settles O10, by the depth of the stack. -/
theorem callPushesOrOverflows : Obligations.CallPushesOrOverflows := by
  refine ⟨encodes_row (.call 0), fun nnn s => ⟨fun h => ?_, fun h => ?_⟩⟩
  · obtain ⟨n, hn, he⟩ := exec_call_of_lt nnn h
    refine ⟨_, he, hn, addrOperand_toNat nnn, fun k hk => ?_, fun _ _ => rfl,
      s.call_unchanged _ n _⟩
    simp only [Vector.getElem_set, eq_comm]
  · rw [exec_call_of_full nnn h]
    exact raise_raises _ s

/-- Settles O11: both instructions are a skip, on equality and on difference. -/
theorem skipComparesRegisterWithByte : Obligations.SkipComparesRegisterWithByte :=
  ⟨encodes_row (.seImm 0 0), encodes_row (.sneImm 0 0), fun x kk s =>
    ⟨⟨_, rfl, s.skipIf_beq_pc (s.reg x) kk, fun r _ => s.skipIf_reg _ r, s.skipIf_unchanged _⟩,
      ⟨_, rfl, s.skipIf_bne_pc (s.reg x) kk, fun r _ => s.skipIf_reg _ r, s.skipIf_unchanged _⟩⟩⟩

/-- Settles O12: both instructions are a skip, on equality and on difference. -/
theorem skipComparesTwoRegisters : Obligations.SkipComparesTwoRegisters :=
  ⟨encodes_row (.seReg 0 0), encodes_row (.sneReg 0 0), fun x y s =>
    ⟨⟨_, rfl, s.skipIf_beq_pc (s.reg x) (s.reg y), fun r _ => s.skipIf_reg _ r,
        s.skipIf_unchanged _⟩,
      ⟨_, rfl, s.skipIf_bne_pc (s.reg x) (s.reg y), fun r _ => s.skipIf_reg _ r,
        s.skipIf_unchanged _⟩⟩⟩

/-- Settles O13: the 16-bit sum of the zero-extended operands is the true sum. -/
theorem jumpWithOffsetAddsV0 : Obligations.JumpWithOffsetAddsV0 :=
  ⟨encodes_row (.jpV0 0), fun nnn s =>
    ⟨_, rfl, addrOperand_add_regWord_toNat nnn s 0, fun _ _ => rfl, s.setPc_unchanged _⟩⟩

end Sys2Proof.Machine
end

section
/-! SUPPORT. The statements of 41_alu.md: what a register write and the write of a result with its flag
leave, the flags and results as numbers, and from these the meanings of `6xkk` and the `8xy_` family
(R101 to R111). -/

namespace Sys2Proof.Machine

/-! ### Frames -/

theorem State.setReg_regsUnchanged (s : State) (x : RegIdx) (b : Byte) :
    RegsUnchanged [x] s (s.setReg x b) :=
  fun _ hr => s.reg_setReg_of_ne b (List.ne_of_not_mem_cons hr)

theorem State.setReg_unchanged (s : State) (x : RegIdx) (b : Byte) :
    Unchanged [] s (s.setReg x b) := by
  intro p _
  cases p <;> simp [Part.same]

/-- Beside the result and the flag, no register is written (R100). -/
theorem State.setRegFlag_regsUnchanged (s : State) (x : RegIdx) (b : Byte) (c : Bool) :
    RegsUnchanged [x, 15] s (s.setRegFlag x b c) := by
  intro r hr
  obtain ⟨hx, hf⟩ : r ≠ x ∧ r ≠ 15 := by simpa using hr
  rw [State.reg_setRegFlag, if_neg hf, if_neg hx]

/-! ### The result and the flag -/

/-- The flag is stored last, so it is in `VF` even when that is the destination (R100, D6). -/
theorem State.reg_flag_setRegFlag (s : State) (x : RegIdx) (b : Byte) (c : Bool) :
    (s.setRegFlag x b c).reg 15 = flagByte c := by
  rw [State.reg_setRegFlag, if_pos rfl]

/-- The flag leaves the result in a destination other than `VF` (R100). -/
theorem State.reg_dest_setRegFlag (s : State) {x : RegIdx} (b : Byte) (c : Bool) (hx : x ≠ 15) :
    (s.setRegFlag x b c).reg x = b := by
  rw [State.reg_setRegFlag, if_neg hx, if_pos rfl]

/-- The flag byte of a comparison (R107, R108, R110). -/
theorem flagByte_decide (p : Prop) [Decidable p] : flagByte (decide p) = if p then 1 else 0 := by
  simp only [flagByte, decide_eq_true_eq]

theorem flagByte_toNat (c : Bool) : (flagByte c).toNat = c.toNat := by
  cases c <;> rfl

/-- The bit a right shift loses, as a number (R109). -/
theorem flagByte_lowBitOut_toNat (a : Byte) : (flagByte (lowBitOut a)).toNat = a.toNat % 2 := by
  rw [flagByte_toNat, lowBitOut, BitVec.getLsbD, Nat.toNat_testBit, pow_zero, Nat.div_one]

/-- The bit a left shift loses, as a number: there is no bit above it (R111). -/
theorem flagByte_highBitOut_toNat (a : Byte) : (flagByte (highBitOut a)).toNat = a.toNat / 128 := by
  have ha := a.isLt
  rw [flagByte_toNat, highBitOut, BitVec.getLsbD, Nat.toNat_testBit]
  omega

/-- The 8-bit difference is the exact one modulo 256 (R108, R110). -/
theorem sub_toNat_eq_emod (a b : Byte) :
    ((a - b).toNat : Int) = (a.toNat - b.toNat : Int) % 256 := by
  have ha := a.isLt
  have hb := b.isLt
  rw [BitVec.toNat_sub]
  omega

theorem shiftRight_one_toNat (a : Byte) : (a >>> 1).toNat = a.toNat / 2 := by
  rw [BitVec.toNat_ushiftRight, Nat.shiftRight_one]

theorem shiftLeft_one_toNat (a : Byte) : (a <<< 1).toNat = 2 * a.toNat % 256 := by
  rw [BitVec.toNat_shiftLeft, Nat.shiftLeft_eq, pow_one, Nat.mul_comm]

/-! ### The statements of 41_alu.md -/

/-- Settles O14: one register write. -/
theorem loadImmediateStoresTheByte : Obligations.LoadImmediateStoresTheByte :=
  ⟨encodes_row (.ldImm 0 0), fun x kk s =>
    ⟨_, rfl, s.reg_setReg_self x kk, s.setReg_regsUnchanged x kk, s.setReg_unchanged x kk⟩⟩

/-- Settles O16: each of the four is one register write, of the copy or of the combination. -/
theorem copyAndLogicWriteNoFlag : Obligations.CopyAndLogicWriteNoFlag := by
  refine ⟨encodes_row (.ldReg 0 0), encodes_row (.orReg 0 0), encodes_row (.andReg 0 0),
    encodes_row (.xorReg 0 0), fun x y s => ⟨?_, ?_, ?_, ?_⟩⟩
  · exact ⟨_, rfl, s.reg_setReg_self x _, s.setReg_regsUnchanged x _, s.setReg_unchanged x _⟩
  · refine ⟨_, rfl, fun k => ?_, s.setReg_regsUnchanged x _, s.setReg_unchanged x _⟩
    rw [State.reg_setReg_self, BitVec.getLsbD_or]
  · refine ⟨_, rfl, fun k => ?_, s.setReg_regsUnchanged x _, s.setReg_unchanged x _⟩
    rw [State.reg_setReg_self, BitVec.getLsbD_and]
  · refine ⟨_, rfl, fun k => ?_, s.setReg_regsUnchanged x _, s.setReg_unchanged x _⟩
    rw [State.reg_setReg_self, BitVec.getLsbD_xor]

/-- Settles O17: the sum in a destination other than `VF`, and the carry in `VF`. -/
theorem addStoresSumThenCarry : Obligations.AddStoresSumThenCarry := by
  refine ⟨encodes_row (.addReg 0 0), fun x y s => ⟨_, rfl, fun hx => ?_, ?_,
    s.setRegFlag_regsUnchanged x _ _, s.setRegFlag_unchanged x _ _⟩⟩
  · rw [State.reg_dest_setRegFlag _ _ _ hx, BitVec.toNat_add]
  · rw [State.reg_flag_setRegFlag, carryOut, flagByte_decide]

/-- What both subtractions do, `V[x]` getting `a - b`: they differ in which operand is the minuend
(R108, R110). -/
theorem State.setRegFlag_sub_noBorrow (s : State) (x : RegIdx) (a b : Byte) :
    (x ≠ 15 → (((s.setRegFlag x (a - b) (noBorrow a b)).reg x).toNat : Int) =
        (a.toNat - b.toNat : Int) % 256) ∧
      (s.setRegFlag x (a - b) (noBorrow a b)).reg 15 = (if b.toNat ≤ a.toNat then 1 else 0) ∧
      RegsUnchanged [x, 15] s (s.setRegFlag x (a - b) (noBorrow a b)) ∧
      Unchanged [] s (s.setRegFlag x (a - b) (noBorrow a b)) := by
  refine ⟨fun hx => ?_, ?_, s.setRegFlag_regsUnchanged x _ _, s.setRegFlag_unchanged x _ _⟩
  · rw [State.reg_dest_setRegFlag _ _ _ hx, sub_toNat_eq_emod]
  · rw [State.reg_flag_setRegFlag, noBorrow, flagByte_decide]

/-- Settles O18: both are a subtraction with its no-borrow flag, the operands the other way round. -/
theorem subtractStoresDifferenceThenNoBorrow : Obligations.SubtractStoresDifferenceThenNoBorrow :=
  ⟨encodes_row (.subReg 0 0), encodes_row (.subnReg 0 0), fun x y s =>
    ⟨⟨_, rfl, s.setRegFlag_sub_noBorrow x (s.reg x) (s.reg y)⟩,
      ⟨_, rfl, s.setRegFlag_sub_noBorrow x (s.reg y) (s.reg x)⟩⟩⟩

/-- Settles O19: the shifted value in a destination other than `VF`, and the lost bit in `VF`. -/
theorem shiftsStoreResultThenBitShiftedOut : Obligations.ShiftsStoreResultThenBitShiftedOut := by
  refine ⟨encodes_row (.shr 0 0), encodes_row (.shl 0 0), fun x y s => ⟨?_, ?_⟩⟩
  · refine ⟨_, rfl, fun hx => ?_, ?_, s.setRegFlag_regsUnchanged x _ _,
      s.setRegFlag_unchanged x _ _⟩
    · rw [State.reg_dest_setRegFlag _ _ _ hx, shiftRight_one_toNat]
    · rw [State.reg_flag_setRegFlag, flagByte_lowBitOut_toNat]
  · refine ⟨_, rfl, fun hx => ?_, ?_, s.setRegFlag_regsUnchanged x _ _,
      s.setRegFlag_unchanged x _ _⟩
    · rw [State.reg_dest_setRegFlag _ _ _ hx, shiftLeft_one_toNat]
    · rw [State.reg_flag_setRegFlag, flagByte_highBitOut_toNat]

end Sys2Proof.Machine
end

section
/-! SUPPORT. The statements of 42_memory_index.md: the new values of `I`, the bytes a store leaves
and the registers a load leaves, and from these the meanings of `Annn`, `Fx1E`, `Fx29`, `Fx33`, `Fx55`
and `Fx65` (R120 to R125). -/

namespace Sys2Proof.Machine

/-! ### Frames -/

theorem State.setIndex_unchanged (s : State) (w : Word) : Unchanged [.index] s (s.setIndex w) := by
  intro p hp
  cases p <;> simp_all [Part.same]

theorem State.setMem_unchanged (s : State) (m : Memory) : Unchanged [.memory] s (s.setMem m) := by
  intro p hp
  cases p <;> simp_all [Part.same]

/-! ### Bytes stored and registers loaded -/

/-- Storing bytes leaves every address that they do not cover (R48). -/
theorem Memory.read_writeBytes_of_outside (m : Memory) {a j : Nat} {bs : List Byte}
    (h : j < a ∨ a + bs.length ≤ j) : (m.writeBytes a bs).read j = m.read j := by
  by_contra hne
  obtain ⟨hlo, hhi⟩ := Memory.range_of_read_writeBytes_ne hne
  omega

/-- After bytes were stored from `a` upward, address `a + k` holds byte `k` of them (R48). -/
theorem Memory.read_writeBytes_add (m : Memory) (a : Nat) {k : Nat} {bs : List Byte}
    (hk : k < bs.length) : (m.writeBytes a bs).read (a + k) = bs[k] := by
  rw [Memory.read_writeBytes, if_pos (Nat.le_add_right a k), Nat.add_sub_cancel_left,
    List.getElem?_eq_getElem hk, Option.getD_some]

/-- The three digits of a byte fit in bytes (R113). -/
theorem decimalDigits_toNat (b : Byte) : (decimalDigits b).map BitVec.toNat =
    [b.toNat / 100, b.toNat / 10 % 10, b.toNat % 10] := by
  have hb := b.isLt
  simp only [decimalDigits, List.map_cons, List.map_nil, BitVec.toNat_ofNat, List.cons.injEq,
    and_true]
  omega

/-- After the digits of `b` were stored from `a` upward, address `a + k` holds digit `k` (R123). -/
theorem Memory.read_writeBytes_decimalDigits_toNat (m : Memory) (a : Nat) (b : Byte) {k : Nat}
    (hk : k < 3) : ((m.writeBytes a (decimalDigits b)).read (a + k)).toNat =
      [b.toNat / 100, b.toNat / 10 % 10, b.toNat % 10][k] := by
  rw [Memory.read_writeBytes_add m a hk]
  simp only [← decimalDigits_toNat]
  exact (List.getElem_map BitVec.toNat).symm

/-- A register after `V[0]` to `V[x]` were loaded from `a` upward (R125). -/
theorem State.reg_setRegsFrom_readBytes (s : State) (m : Memory) (a : Nat) (x r : RegIdx) :
    (s.setRegsFrom 0 (m.readBytes a (x.toNat + 1))).reg r =
      if r.toNat ≤ x.toNat then m.read (a + r.toNat) else s.reg r := by
  have hx := x.isLt
  rw [State.reg_setRegsFrom _ _ _ (by rw [Memory.length_readBytes]; omega), if_pos r.toNat.zero_le,
    Nat.sub_zero, Memory.getElem?_readBytes]
  simp only [Nat.lt_succ_iff]
  split
  · rw [Option.getD_some]
  · rw [Option.getD_none]

/-! ### The new `I` -/

/-- The address of a glyph is the true sum: it does not reach 2^16 (R122). -/
theorem glyphAddr_toNat (c : Config) (d : Byte) :
    (glyphAddr c d).toNat = c.fontBase.val + d.toNat * 5 := by
  have hbase := c.fontBase.isLt
  have hd := d.isLt
  exact Nat.mod_eq_of_lt (by simp only [Config.glyphBytes]; omega)

/-! ### The statements of 42_memory_index.md -/

/-- Settles O24: the bytes stored are `V[0]` to `V[x]`, when the last of them is in memory. -/
theorem storeRegistersWritesARange : Obligations.StoreRegistersWritesARange := by
  refine ⟨encodes_row (.storeRegs 0), fun x s => ⟨fun hin => ?_, fun hout => ?_⟩⟩
  · refine ⟨_, exec_storeRegs_inside hin, fun r hr => ?_, fun a ha => ?_, fun _ _ => rfl,
      s.setMem_unchanged _⟩
    · rw [State.setMem_mem, Memory.read_writeBytes_regsUpTo s.mem s _ hr, BitVec.ofNat_toNat,
        BitVec.setWidth_eq]
    · exact s.mem.read_writeBytes_of_outside (by rw [State.length_regsUpTo]; omega)
  · rw [exec_storeRegs_outside hout]
    exact raise_raises _ s

/-- Settles O25: the registers loaded are `V[0]` to `V[x]`, when the last byte is in memory. -/
theorem loadRegistersReadsARange : Obligations.LoadRegistersReadsARange := by
  refine ⟨encodes_row (.loadRegs 0), fun x s => ⟨fun hin => ?_, fun hout => ?_⟩⟩
  · exact ⟨_, exec_loadRegs_inside hin, s.reg_setRegsFrom_readBytes s.mem s.index.toNat x,
      s.setRegsFrom_unchanged 0 _⟩
  · rw [exec_loadRegs_outside hout]
    exact raise_raises _ s

/-- Settles O26: `Fx65` reads the bytes at `I` upward (O25), which are those that `Fx55` left there
(O24). -/
theorem storeThenLoadGivesTheRegistersBack : Obligations.StoreThenLoadGivesTheRegistersBack := by
  intro x s u hin
  obtain ⟨_, hstores⟩ := storeRegistersWritesARange
  obtain ⟨_, hloads⟩ := loadRegistersReadsARange
  obtain ⟨t, hstore, hstored, _⟩ := (hstores x s).1 hin
  refine ⟨t, hstore, fun hindex hmem => ?_⟩
  obtain ⟨v, hload, hloaded, _⟩ := (hloads x u).1 (hindex ▸ hin)
  refine ⟨v, hload, fun r hr => ?_⟩
  calc v.reg r = u.mem.read (u.index.toNat + r.toNat) := by rw [hloaded, if_pos hr]
    _ = t.mem.read (s.index.toNat + r.toNat) := by rw [hmem, hindex]
    _ = s.reg r := hstored r hr

/-- Settles O20: `I` is the zero-extended `nnn`. -/
theorem loadIndexStoresTheAddress : Obligations.LoadIndexStoresTheAddress :=
  ⟨encodes_row (.ldI 0), fun nnn s =>
    ⟨_, rfl, addrOperand_toNat nnn, fun _ _ => rfl, s.setIndex_unchanged _⟩⟩

/-- Settles O21: the 16-bit sum with the zero-extended register. -/
theorem addToIndexWrapsWithoutFlag : Obligations.AddToIndexWrapsWithoutFlag := by
  refine ⟨encodes_row (.addI 0), fun x s =>
    ⟨_, rfl, ?_, fun _ _ => rfl, s.setIndex_unchanged _⟩⟩
  rw [State.setIndex_index, BitVec.toNat_add, State.regWord_toNat]

/-- Settles O22: the address of the glyph of the whole byte. -/
theorem pointAtGlyphUsesTheWholeByte : Obligations.PointAtGlyphUsesTheWholeByte :=
  ⟨encodes_row (.ldF 0), fun x s =>
    ⟨_, rfl, glyphAddr_toNat s.env.config (s.reg x), fun _ _ => rfl, s.setIndex_unchanged _⟩⟩

/-- Settles O23: the bytes stored are the three digits, when the last of them is in memory. -/
theorem decimalDigitsAreStoredAtIndex : Obligations.DecimalDigitsAreStoredAtIndex := by
  refine ⟨encodes_row (.ldB 0), fun x s => ⟨fun hin => ?_, fun hout => ?_⟩⟩
  · have hdigit {k : Nat} (hk : k < 3) :=
      s.mem.read_writeBytes_decimalDigits_toNat s.index.toNat (s.reg x) hk
    refine ⟨_, exec_ldB_inside hin, hdigit (k := 0) (by decide), hdigit (k := 1) (by decide),
      hdigit (k := 2) (by decide), fun a ha => ?_, fun _ _ => rfl, s.setMem_unchanged _⟩
    exact s.mem.read_writeBytes_of_outside (by simp only [decimalDigits, List.length]; omega)
  · rw [exec_ldB_outside hout]
    exact raise_raises _ s

end Sys2Proof.Machine
end

section
/-! SUPPORT. The statements of 43_timer_keypad.md: what a timer write and a suspended key wait
leave, the delay timer after any number of Ticks, from these the meanings of the timer and keypad
family (R130 to R136); and the key wait, whose second turn already changes nothing (R192). -/

namespace Sys2Proof.Machine

/-! ### Frames -/

theorem State.setDelay_unchanged (s : State) (b : Byte) : Unchanged [.delay] s (s.setDelay b) := by
  intro p hp
  cases p <;> simp_all [Part.same]

theorem State.setSound_unchanged (s : State) (b : Byte) : Unchanged [.sound] s (s.setSound b) := by
  intro p hp
  cases p <;> simp_all [Part.same]

/-- A key wait that suspends moves `pc` and sets the status alone (R136). -/
theorem State.suspend_unchanged (s : State) (w : Word) (c : Status) :
    Unchanged [.pc, .status] s ((s.setPc w).setStatus c) := by
  intro p hp
  cases p <;> simp_all [Part.same]

/-! ### The delay timer -/

/-- A Tick takes the delay timer down by one, floored at 0 (R185). -/
theorem tick_delay_toNat (s : State) : (tick s).delay.toNat = s.delay.toNat - 1 :=
  countDown_toNat s.delay

/-- `n` Ticks take the delay timer down by `n`, floored at 0 (R131, R185). -/
theorem iterate_tick_delay_toNat (s : State) (n : Nat) :
    (tick^[n] s).delay.toNat = s.delay.toNat - n := by
  induction n with
  | zero => rfl
  | succ n ih => rw [Function.iterate_succ_apply', tick_delay_toNat, ih, Nat.sub_sub]

/-! ### The keypad -/

/-- A skip on a pressed key (R133). -/
theorem State.skipIf_pressed_pc (s : State) (b : Bool) :
    (s.skipIf (b == true)).pc = if b = true then s.pc + 2 else s.pc := by
  cases b <;> rfl

/-- A skip on a key that is not pressed (R134). -/
theorem State.skipIf_released_pc (s : State) (b : Bool) :
    (s.skipIf (b == false)).pc = if b = true then s.pc else s.pc + 2 := by
  cases b <;> rfl

theorem exec_ldVxK_of_noKey (x : RegIdx) (s : State)
    (hnone : ∀ k (h : k < 16), s.keypad[k] = false) :
    exec (.ldVxK x) s = .next ((s.setPc (s.pc - 2)).setStatus .waiting) := by
  rcases exec_ldVxK_cases x s with ⟨_, he⟩ | ⟨k, hk, hpressed, _, _⟩
  · exact he
  · exact absurd (hpressed.symm.trans (hnone k hk)) (by decide)

/-- The key that is pressed with none below it is the one that the key wait finds: of two such keys
neither is below the other (R136, D19). -/
theorem exec_ldVxK_of_leastKey (x : RegIdx) {s : State} {k : Nat} (hk : k < 16)
    (hpressed : s.keypad[k] = true) (hleast : ∀ j (hj : j < k), s.keypad[j] = false) :
    exec (.ldVxK x) s = .next (s.setReg x (BitVec.ofNat 8 k)) := by
  rcases exec_ldVxK_cases x s with ⟨hnone, _⟩ | ⟨m, hm, hpressed', hleast', he⟩
  · exact absurd (hpressed.symm.trans (hnone k hk)) (by decide)
  · rcases Nat.lt_trichotomy m k with hlt | rfl | hlt
    · exact absurd (hpressed'.symm.trans (hleast m hlt)) (by decide)
    · exact he
    · exact absurd (hpressed.symm.trans (hleast' k hlt)) (by decide)

/-! ### A key wait with no key pressed -/

/-- `s` after one turn of a key wait with no key pressed: the word is in `current_opcode`, `pc` is
back, and the status is `WAITING`. -/
def State.keyWaited (s : State) : State :=
  ((s.markStarted.fetched s.nextWord).setPc s.pc).setStatus .waiting

/-- A second turn changes nothing (R192). -/
theorem State.keyWaited_keyWaited (s : State) : s.keyWaited.keyWaited = s.keyWaited := rfl

theorem State.keyWaited_unchanged (s : State) :
    Unchanged [.opcode, .status, .env] s s.keyWaited := by
  intro p hp
  cases p <;> simp_all [Part.same, State.keyWaited]

/-- The status `WAITING` is no fault, so the host may issue the next Cycle event (R166). -/
theorem State.keyWaited_mayCycle {s : State} (h : MayCycle s) : MayCycle s.keyWaited := by
  obtain ⟨_, hloader⟩ := h
  exact ⟨(fun _ _ hf => nomatch hf), hloader⟩

/-- A Cycle event at a key wait with no key pressed is one turn: the step back undoes the advance
(R136). -/
theorem step_keyWait {x : RegIdx} {s : State} (hev : s.env.events = []) (hmay : MayCycle s)
    (hpc : s.pc.toNat ≤ 0x0FFE) (hwait : decodeWord s.nextWord = .ok (.ldVxK x))
    (hnone : ∀ k (h : k < 16), s.keypad[k] = false) : step s = .next s.keyWaited := by
  have hexec := exec_ldVxK_of_noKey x (s.markStarted.fetched s.nextWord) hnone
  have hback : (s.markStarted.fetched s.nextWord).pc - 2 = s.pc := BitVec.add_sub_cancel s.pc 2
  rw [step_of_decodeWord hev hmay hpc hwait, hexec, hback]
  rfl

/-! ### The statements of 43_timer_keypad.md -/

/-- Settles O28: the Ticks count down what `Fx15` wrote. -/
theorem delayIsSetAndCountsDownToZero : Obligations.DelayIsSetAndCountsDownToZero :=
  ⟨encodes_row (.ldDtVx 0), fun _ s =>
    ⟨_, rfl, rfl, fun _ _ => rfl, s.setDelay_unchanged _, iterate_tick_delay_toNat _⟩⟩

/-- Settles O42: the first turn leads to a state in which every further turn leaves all as it is. -/
theorem keyWaitMakesNoProgress : Obligations.KeyWaitMakesNoProgress := by
  intro x s n hev hmay hpc hwait hnone
  have hfirst : step s = .next s.keyWaited := step_keyWait hev hmay hpc hwait hnone
  have hagain : step s.keyWaited = .next s.keyWaited.keyWaited :=
    step_keyWait hev (State.keyWaited_mayCycle hmay) hpc hwait hnone
  rw [State.keyWaited_keyWaited] at hagain
  refine ⟨s.keyWaited, ?_, rfl, rfl, fun _ _ => rfl, s.keyWaited_unchanged⟩
  rw [run_succ, hfirst]
  exact run_of_step_eq_self hagain n

/-- Settles O27: one register write, and one write of the sound timer. -/
theorem delayIsReadAndSoundIsSet : Obligations.DelayIsReadAndSoundIsSet :=
  ⟨encodes_row (.ldVxDt 0), encodes_row (.ldStVx 0), fun x s =>
    ⟨⟨_, rfl, s.reg_setReg_self x _, s.setReg_regsUnchanged x _, s.setReg_unchanged x _⟩,
      ⟨_, rfl, rfl, fun _ _ => rfl, s.setSound_unchanged _⟩⟩⟩

/-- Settles O29: both instructions are a skip on the key's level, when the number names a key. -/
theorem keySkipsTestTheKeyNamedByTheRegister :
    Obligations.KeySkipsTestTheKeyNamedByTheRegister := by
  refine ⟨encodes_row (.skp 0), encodes_row (.sknp 0), fun x s =>
    ⟨fun hkey => ⟨?_, ?_⟩, fun hout => ?_⟩⟩
  · exact ⟨_, exec_skp_of_lt hkey, s.skipIf_pressed_pc _, fun r _ => s.skipIf_reg _ r,
      s.skipIf_unchanged _⟩
  · exact ⟨_, exec_sknp_of_lt hkey, s.skipIf_released_pc _, fun r _ => s.skipIf_reg _ r,
      s.skipIf_unchanged _⟩
  · rw [exec_skp_of_ge hout, exec_sknp_of_ge hout]
    exact ⟨raise_raises _ s, raise_raises _ s⟩

/-- Settles O30, by whether a key is pressed; a key's number fits in a byte. -/
theorem keyWaitStoresLeastKeyOrStepsBack : Obligations.KeyWaitStoresLeastKeyOrStepsBack := by
  refine ⟨encodes_row (.ldVxK 0), fun x s => ⟨fun k hk hpressed hleast => ?_, fun hnone => ?_⟩⟩
  · refine ⟨_, exec_ldVxK_of_leastKey x hk hpressed hleast, ?_, s.setReg_regsUnchanged x _,
      s.setReg_unchanged x _⟩
    rw [State.reg_setReg_self, BitVec.toNat_ofNat, Nat.mod_eq_of_lt (by omega)]
  · exact ⟨_, exec_ldVxK_of_noKey x s hnone, rfl, rfl, fun _ _ => rfl, s.suspend_unchanged _ _⟩

end Sys2Proof.Machine
end

section
/-! SUPPORT. The statements of 44_display.md: the pixels a draw inverts, what one draw does to the
screen and to `VF` in terms of them, and from these the meaning of `Dxyn` and of drawing twice
(R140 to R145). -/

namespace Sys2Proof.Machine

/-! ### The sprite a draw reads -/

/-- The screen pixels under the set bits of the sprite that `Dxyn` reads in `s` (R140). -/
def State.sprite (s : State) (x y : RegIdx) (n : BitVec 4) : List (Fin 64 × Fin 32) :=
  spritePixels (s.reg x).toNat (s.reg y).toNat 0 (s.mem.readBytes s.index.toNat n.toNat)

/-- The bytes read are those of the addresses, however the memory holds them (R48). -/
theorem Memory.readBytes_congr {m m' : Memory} (h : ∀ a, m.read a = m'.read a) (a n : Nat) :
    m.readBytes a n = m'.readBytes a n :=
  List.ext_getElem? fun i => by rw [Memory.getElem?_readBytes, Memory.getElem?_readBytes, h]

/-- A draw reads the origin, `I` and memory, and nothing else (R140). -/
theorem State.sprite_congr {s u : State} {x y : RegIdx} (n : BitVec 4) (hindex : u.index = s.index)
    (hmem : ∀ a, u.mem.read a = s.mem.read a) (hx : u.reg x = s.reg x) (hy : u.reg y = s.reg y) :
    u.sprite x y n = s.sprite x y n := by
  rw [State.sprite, State.sprite, hindex, hx, hy, Memory.readBytes_congr hmem]

/-- A sprite has at most 15 rows, so that no pixel is inverted twice (R141). -/
theorem State.nodup_sprite (s : State) (x y : RegIdx) (n : BitVec 4) : (s.sprite x y n).Nodup := by
  have hn : n.toNat < 16 := n.isLt
  exact nodup_spritePixels _ _ _ _ (by rw [Memory.length_readBytes]; omega)

/-- Bit 7 of a sprite byte is its leftmost (R141). -/
theorem getMsbD_eq_testBit (b : Byte) {j : Nat} (hj : j < 8) :
    b.getMsbD j = b.toNat.testBit (7 - j) := by
  rw [BitVec.getMsbD_eq_getLsbD, decide_eq_true hj, Bool.true_and, BitVec.testBit_toNat]

theorem byte_ne_zero_iff (b : Byte) : b ≠ 0 ↔ ∃ j, j < 8 ∧ b.getMsbD j = true := by
  constructor
  · intro hb
    by_contra hnone
    refine hb (BitVec.eq_of_getMsbD_eq fun j hj => ?_)
    rw [BitVec.ofNat_eq_ofNat, BitVec.getMsbD_zero, Bool.eq_false_iff]
    exact fun hbit => hnone ⟨j, hj, hbit⟩
  · rintro ⟨j, _, hbit⟩ rfl
    simp at hbit

/-- The place of sprite pixel `(j, r)`, axis by axis (R141). -/
theorem pixelAt_eq_iff {ox oy j r : Nat} {px : Fin 64} {py : Fin 32} :
    pixelAt ox oy j r = (px, py) ↔ px.val = (ox + j) % 64 ∧ py.val = (oy + r) % 32 := by
  simp only [pixelAt, Prod.mk.injEq, Fin.ext_iff, Fin.ofNat]
  omega

section
variable {s : State} {x y : RegIdx} {n : BitVec 4}

/-- At the place of sprite pixel `(j, r)` the draw inverts exactly when that sprite bit is set: no
other pixel of the sprite lands there (R140, R141). -/
theorem State.mem_sprite_at {r j : Nat} {px : Fin 64} {py : Fin 32} (hr : r < n.toNat) (hj : j < 8)
    (hpx : px.val = ((s.reg x).toNat + j) % 64) (hpy : py.val = ((s.reg y).toNat + r) % 32) :
    (px, py) ∈ s.sprite x y n ↔ (s.mem.read (s.index.toNat + r)).toNat.testBit (7 - j) = true := by
  have hplace := pixelAt_eq_iff.mpr ⟨hpx, hpy⟩
  have hn : n.toNat < 16 := n.isLt
  rw [← getMsbD_eq_testBit _ hj, State.sprite, mem_spritePixels_readBytes]
  constructor
  · rintro ⟨r', j', hr', hj', hbit, hplace'⟩
    obtain ⟨rfl, rfl⟩ := pixelAt_inj hj' hj (by omega) (by omega) (hplace'.trans hplace.symm)
    exact hbit
  · exact fun hbit => ⟨r, j, hr, hj, hbit, hplace⟩

/-- A pixel that is the place of no sprite pixel is not inverted (R140). -/
theorem State.not_mem_sprite {px : Fin 64} {py : Fin 32}
    (h : ∀ r j, r < n.toNat → j < 8 →
      ¬ (px.val = ((s.reg x).toNat + j) % 64 ∧ py.val = ((s.reg y).toNat + r) % 32)) :
    (px, py) ∉ s.sprite x y n := by
  rw [State.sprite, mem_spritePixels_readBytes]
  rintro ⟨r, j, hr, hj, _, hplace⟩
  exact h r j hr hj (pixelAt_eq_iff.mp hplace)

/-- A sprite inverts some pixel exactly when one of its bytes is not 0. -/
theorem State.exists_mem_sprite_iff :
    (∃ p, p ∈ s.sprite x y n) ↔ ∃ r, r < n.toNat ∧ s.mem.read (s.index.toNat + r) ≠ 0 := by
  simp only [State.sprite, mem_spritePixels_readBytes, byte_ne_zero_iff]
  constructor
  · rintro ⟨_, r, j, hr, hj, hbit, _⟩
    exact ⟨r, hr, j, hj, hbit⟩
  · rintro ⟨r, hr, j, hj, hbit⟩
    exact ⟨_, r, j, hr, hj, hbit, rfl⟩

/-! ### One draw -/

theorem flagByte_eq_one_iff (c : Bool) : flagByte c = 1 ↔ c = true := by
  cases c <;> decide

/-- `t` is the state that a draw in `s` leaves: the sprite's pixels are inverted, and `VF` is 1
exactly when one of them was on (R140, R142). -/
structure Draws (s : State) (x y : RegIdx) (n : BitVec 4) (t : State) : Prop where
  pixel : ∀ px py, Display.pixel t.display px py =
    (Display.pixel s.display px py ^^ decide ((px, py) ∈ s.sprite x y n))
  flag : t.reg 15 = flagByte ((s.sprite x y n).any fun p => Display.pixel s.display p.1 p.2)
  regs : RegsUnchanged [15] s t
  frame : Unchanged [.display] s t

theorem exec_drw_draws (h : n.toNat = 0 ∨ s.index.toNat + n.toNat ≤ 4096) :
    ∃ t, exec (.drw x y n) s = .next t ∧ Draws s x y n t := by
  obtain ⟨hpixel, hflag⟩ := blit_spec s.display _ (s.nodup_sprite x y n)
  refine ⟨_, exec_drw_inside h, hpixel, ?_, fun r hr => ?_, s.afterBlit_unchanged _⟩
  · rw [State.reg_afterBlit, if_pos rfl, ← hflag, State.sprite]
  · rw [State.reg_afterBlit, if_neg (List.ne_of_not_mem_cons hr)]

variable {t : State}

/-- `VF` is 1 exactly when a pixel of the sprite was on (R142). -/
theorem Draws.flag_eq_one_iff (h : Draws s x y n t) : t.reg 15 = 1 ↔
    ∃ px py, (px, py) ∈ s.sprite x y n ∧ Display.pixel s.display px py = true := by
  rw [h.flag, flagByte_eq_one_iff, List.any_eq_true, Prod.exists]

/-- A pixel of the sprite that was on is one that went off, and there is no other way to go off
(R142). -/
theorem Draws.went_off_iff (h : Draws s x y n t) (px : Fin 64) (py : Fin 32) :
    (Display.pixel s.display px py = true ∧ Display.pixel t.display px py = false) ↔
      (px, py) ∈ s.sprite x y n ∧ Display.pixel s.display px py = true := by
  rw [h.pixel, and_comm]
  refine and_congr_left fun hon => ?_
  rw [hon, Bool.true_xor, Bool.not_eq_false', decide_eq_true_iff]

/-- `VF` is 1 and a pixel went off, or `VF` is 0 and none did (R142). -/
theorem Draws.collision (h : Draws s x y n t) :
    (t.reg 15 = 1 ∧ ∃ (px : Fin 64) (py : Fin 32),
        Display.pixel s.display px py = true ∧ Display.pixel t.display px py = false) ∨
      (t.reg 15 = 0 ∧ ∀ (px : Fin 64) (py : Fin 32),
        Display.pixel s.display px py = true → Display.pixel t.display px py = true) := by
  have hiff := h.flag_eq_one_iff
  simp only [← h.went_off_iff] at hiff
  by_cases hf : t.reg 15 = 1
  · exact .inl ⟨hf, hiff.mp hf⟩
  · refine .inr ⟨?_, fun px py hon => ?_⟩
    · rw [h.flag] at hf ⊢
      exact (flagByte_eq_zero_or_one _).resolve_right hf
    · by_contra hoff
      exact hf (hiff.mpr ⟨px, py, hon, Bool.eq_false_iff.mpr hoff⟩)

end

/-! ### The statements of 44_display.md -/

/-- Settles O31: a place of the sprite is inverted exactly when its bit is set, any other is not. -/
theorem drawXorsTheSpriteAndReportsCollision :
    Obligations.DrawXorsTheSpriteAndReportsCollision := by
  refine ⟨encodes_row (.drw 0 0 0), fun x y n s => ⟨fun hin => ?_, fun h0 hout => ?_⟩⟩
  · obtain ⟨t, hexec, hdraw⟩ := exec_drw_draws (x := x) (y := y) hin
    refine ⟨t, hexec, fun r j px py hr hj hpx hpy => ?_, fun px py hplace => ?_, hdraw.collision,
      hdraw.regs, hdraw.frame⟩
    · rw [hdraw.pixel, Bool.decide_congr (State.mem_sprite_at hr hj hpx hpy), Bool.decide_eq_true]
    · rw [hdraw.pixel, decide_eq_false (State.not_mem_sprite hplace), Bool.xor_false]
  · rw [exec_drw_outside h0 hout]
    exact raise_raises _ s

/-- Settles O32: both draws have the same sprite, and on a clear screen the first turns on exactly
its pixels. -/
theorem drawingTwiceGivesTheScreenBack : Obligations.DrawingTwiceGivesTheScreenBack := by
  intro x y n s u hin
  obtain ⟨t, hexec, hfirst⟩ := exec_drw_draws (x := x) (y := y) hin
  refine ⟨t, hexec, fun hindex hmem hx hy hscreen => ?_⟩
  obtain ⟨v, hexec', hsecond⟩ := exec_drw_draws (s := u) (x := x) (y := y) (hindex ▸ hin)
  have hsame : u.sprite x y n = s.sprite x y n := State.sprite_congr n hindex hmem hx hy
  refine ⟨v, hexec', fun px py => ?_, fun hclear => ?_⟩
  · rw [hsecond.pixel, hsame, hscreen, hfirst.pixel, Bool.xor_assoc, Bool.xor_self, Bool.xor_false]
  · have hon (px : Fin 64) (py : Fin 32) :
        Display.pixel u.display px py = true ↔ (px, py) ∈ s.sprite x y n := by
      rw [hscreen, hfirst.pixel, hclear, Bool.false_xor, decide_eq_true_iff]
    calc v.reg 15 = 1
      _ ↔ ∃ px py, (px, py) ∈ s.sprite x y n := by
        simp only [hsecond.flag_eq_one_iff, hsame, hon, and_self]
      _ ↔ ∃ r, r < n.toNat ∧ s.mem.read (s.index.toNat + r) ≠ 0 := by
        rw [← State.exists_mem_sprite_iff, Prod.exists]

end Sys2Proof.Machine
end

section
/-! SUPPORT. The statements of 45_random.md: what the random instruction does and leaves (R150), who
draws, and a machine of another run, in which every instruction but the random one does the same
(R151). -/

namespace Sys2Proof.Machine

/-! ### One draw -/

/-- A draw and the register write that follows it change no part of the state but the count of draws
(R150). -/
theorem State.drawn_setReg_unchanged (s : State) (x : RegIdx) (b : Byte) :
    Unchanged [.draws] s (s.drawn.setReg x b) := by
  intro p hp
  cases p <;> simp_all [Part.same]

theorem Effect.draws_cases {i : Instr} {s t : State} (h : Effect s i t) :
    t.draws = s.draws ∨ ∃ x kk, i = .rnd x kk := by
  cases h with
  | randomDrawn x kk b => exact .inr ⟨x, kk, rfl⟩
  | _ => exact .inl rfl

/-! ### The machine of another run

The updates of the state and the instructions' meanings commute with the change of the sequence and of
the count of draws. -/

/-- The outcome with the sequence and the count of draws replaced in its next state. -/
def outcomeWithSource (source n : Nat) : Result → Result
  | .next t => .next (t.withSource source n)
  | .fault f => .fault f
  | .refused r => .refused r

section
variable (s : State) (source n : Nat)

theorem State.skipIf_withSource (c : Bool) :
    (s.withSource source n).skipIf c = (s.skipIf c).withSource source n := by
  cases c <;> rfl

theorem State.setRegsFrom_withSource (k : Nat) (bs : List Byte) :
    (s.withSource source n).setRegsFrom k bs = (s.setRegsFrom k bs).withSource source n := by
  induction bs generalizing s k with
  | nil => rfl
  | cons b bs ih => exact ih (s.setReg (BitVec.ofNat 4 k) b) (k + 1)

theorem State.pop?_withSource :
    (s.withSource source n).pop? = s.pop?.map (·.withSource source n) := by
  by_cases h : 0 < s.sp.val
  · rw [show s.pop? = some _ from dif_pos h]
    exact dif_pos h
  · rw [show s.pop? = none from dif_neg h]
    exact dif_neg h

theorem State.push?_withSource :
    (s.withSource source n).push? = s.push?.map (·.withSource source n) := by
  by_cases h : s.sp.val < 16
  · rw [show s.push? = some _ from dif_pos h]
    exact dif_pos h
  · rw [show s.push? = none from dif_neg h]
    exact dif_neg h

theorem guarded_withSource (check : Option Fault) (t : State) :
    guarded check (s.withSource source n) (t.withSource source n) =
      outcomeWithSource source n (guarded check s t) := by
  cases check <;> rfl

theorem skipOnKey_withSource (k : Byte) (level : Bool) :
    skipOnKey k level (s.withSource source n) =
      outcomeWithSource source n (skipOnKey k level s) := by
  have hkey : (s.withSource source n).keyLevel k = s.keyLevel k := rfl
  simp only [skipOnKey, hkey, State.skipIf_withSource]
  cases s.keyLevel k <;> rfl

theorem execRet_withSource :
    execRet (s.withSource source n) = outcomeWithSource source n (execRet s) := by
  simp only [execRet, State.pop?_withSource]
  cases s.pop? <;> rfl

theorem execCall_withSource (nnn : Addr) :
    execCall nnn (s.withSource source n) = outcomeWithSource source n (execCall nnn s) := by
  simp only [execCall, State.push?_withSource]
  cases s.push? <;> rfl

theorem execLdVxK_withSource (x : RegIdx) :
    execLdVxK x (s.withSource source n) = outcomeWithSource source n (execLdVxK x s) := by
  have hkey : (s.withSource source n).leastPressed = s.leastPressed := rfl
  simp only [execLdVxK, hkey]
  cases s.leastPressed <;> rfl

theorem execLoadRegs_withSource (x : RegIdx) :
    execLoadRegs x (s.withSource source n) = outcomeWithSource source n (execLoadRegs x s) := by
  simp only [execLoadRegs, State.setRegsFrom_withSource]
  exact guarded_withSource s source n _ _

/-- An instruction other than the random one does in the machine of another run what it does in this
one (R151). -/
theorem exec_withSource {i : Instr} (hi : ∀ x kk, i ≠ .rnd x kk) :
    exec i (s.withSource source n) = outcomeWithSource source n (exec i s) := by
  cases i with
  | rnd x kk => exact absurd rfl (hi x kk)
  | ret => exact execRet_withSource s source n
  | call nnn => exact execCall_withSource s source n nnn
  | skp _ | sknp _ => exact skipOnKey_withSource s source n _ _
  | ldVxK x => exact execLdVxK_withSource s source n x
  | loadRegs x => exact execLoadRegs_withSource s source n x
  | seImm _ _ | sneImm _ _ | seReg _ _ | sneReg _ _ =>
    exact congrArg Host.Outcome.next (s.skipIf_withSource source n _)
  | drw _ _ _ =>
    exact guarded_withSource s source n (checkRange .read s.indexAddr _) (s.afterBlit _)
  | ldB _ | storeRegs _ =>
    exact guarded_withSource s source n (checkRange .write s.indexAddr _) (s.setMem _)
  | _ => rfl

end

/-! ### The statement of 45_random.md -/

/-- Settles O33: the random instruction is one draw and one register write; no other kind of effect
draws, and no other meaning reads the sequence or the count of draws. -/
theorem randomByteIsDrawnUnderTheMask : Obligations.RandomByteIsDrawnUnderTheMask := by
  refine ⟨encodes_row (.rnd 0 0), fun x kk s => ?_, fun i s t hi h => ⟨?_, fun source n => ?_⟩⟩
  · refine ⟨_, rfl, s.drawn.reg_setReg_self x _, rfl, fun k hk => ?_,
      s.drawn.setReg_regsUnchanged x _, s.drawn_setReg_unchanged x _⟩
    rw [State.reg_setReg_self, BitVec.getLsbD_and, hk, Bool.and_false]
  · exact (effect_of_exec h).draws_cases.resolve_right fun ⟨x, kk, hrnd⟩ => hi x kk hrnd
  · rw [exec_withSource s source n hi, h]
    rfl

end Sys2Proof.Machine
end

section
/-! SUPPORT. The statements of 46_cycle_driver.md: what a due Cycle event comes to, what the host's record
and its policy bar (R163, R166), and the KeySet event (R162). -/

namespace Sys2Proof.Machine

/-! ### One fetch and what follows it -/

/-- At a legal word, the fetch hands over to that word's instruction (R156). -/
theorem runInstruction_of_decodeWord {s : State} {i : Instr} (hpc : s.pc.toNat ≤ 0x0FFE)
    (hi : decodeWord s.nextWord = .ok i) : runInstruction s = exec i (s.fetched s.nextWord) := by
  rcases runInstruction_cases s with ⟨hout, _⟩ | ⟨_, ⟨e, he, _⟩ | ⟨j, hj, hrun⟩⟩
  · omega
  · cases he.symm.trans hi
  · cases hj.symm.trans hi
    exact hrun

/-- Above 0x0FFE the fetch raises (R158). -/
theorem runInstruction_of_fetchAbove {s : State} (hpc : 0x0FFE < s.pc.toNat) :
    runInstruction s = raise (.outOfBoundsAddress .fetch s.pc.toNat) s := by
  rcases runInstruction_cases s with ⟨_, hrun⟩ | ⟨hin, _⟩
  · exact hrun
  · omega

/-- The status before a fetch is never read: the fetch fault, the decode error and the fetched state
each put another in its place (R157). -/
theorem runInstruction_setStatus (s : State) (c : Status) :
    runInstruction (s.setStatus c) = runInstruction s := by
  have hfetch : (s.setStatus c).fetch = s.fetch := rfl
  unfold runInstruction
  rw [hfetch]
  cases s.fetch <;> rfl

/-! ### A due Cycle event -/

section
variable {s r : State}

/-- Taking the event off the schedule changes the schedule alone (R155). -/
theorem CycleDue.exists_withEvents (h : CycleDue s r) : ∃ es, r = s.withEvents es := by
  rcases h with ⟨_, rfl⟩ | ⟨es, _, rfl⟩
  · exact ⟨r.env.events, rfl⟩
  · exact ⟨es, rfl⟩

theorem CycleDue.setStatus (h : CycleDue s r) (c : Status) :
    CycleDue (s.setStatus c) (r.setStatus c) := by
  rcases h with ⟨hev, rfl⟩ | ⟨es, hev, rfl⟩
  · exact .inl ⟨hev, rfl⟩
  · exact .inr ⟨es, hev, rfl⟩

/-- The fetched state of a due Cycle event: all but what the fetch writes and the host's side is as it
was (R158, R159). -/
theorem CycleDue.fetched_unchanged (h : CycleDue s r) (w : Word) :
    Unchanged [.opcode, .pc, .status, .env] s (r.markStarted.fetched w) := by
  obtain ⟨es, rfl⟩ := h.exists_withEvents
  intro p hp
  cases p <;> simp_all [Part.same]

/-- A due Cycle event that ends before its fetch changes the status and the host's side alone (R158). -/
theorem CycleDue.setStatus_unchanged (h : CycleDue s r) (c : Status) :
    Unchanged [.status, .env] s (r.markStarted.setStatus c) := by
  obtain ⟨es, rfl⟩ := h.exists_withEvents
  intro p hp
  cases p <;> simp_all [Part.same]

/-- A due Cycle event that the host may issue is one fetch and what follows it (R156). -/
theorem step_of_mayCycle (hdue : CycleDue s r) (hmay : MayCycle s) :
    step s = runInstruction r.markStarted := by
  have hr : MayCycle r := by
    obtain ⟨es, rfl⟩ := hdue.exists_withEvents
    exact hmay
  rw [step_of_cycleDue hdue, cycle_of_mayCycle hr]

end

/-- After a fault under HALT a Cycle event answers that fault (R166). -/
theorem cycle_of_halted {s : State} {f : Fault} (hstatus : s.status = .fault f)
    (hhalt : s.env.config.faultPolicy = .halt) : cycle s = .fault f := by
  rw [cycle, (haltedBy_eq_some_iff s f).mpr ⟨hstatus, hhalt⟩]

/-- While the run goes on, a Cycle event is refused before the Loader has finished (R163). -/
theorem cycle_of_loaderUnfinished {s : State} (hgo : RunGoesOn s)
    (hload : ¬ (s.env.fontLoaded = true ∧ s.env.programLoaded = true)) :
    cycle s = .refused .cycleBeforeLoaderFinished := by
  rw [cycle, (haltedBy_eq_none_iff s).mpr hgo]
  exact if_neg fun hfin => hload ((loaderFinished_eq_true_iff s).mp hfin)

/-- A Cycle event that answers a next state is one that the host may issue (R163, R166). -/
theorem mayCycle_of_cycle_next {s t : State} (h : cycle s = .next t) : MayCycle s := by
  rcases cycle_cases s with ⟨f, _, _, he⟩ | ⟨_, _, he⟩ | ⟨hmay, _⟩ | ⟨hmay, _⟩
  · cases he.symm.trans h
  · cases he.symm.trans h
  · exact hmay
  · exact hmay

/-! ### The other events -/

/-- After the first Cycle event a Load is refused (R163). -/
theorem load_of_started {s : State} (bytes : List Byte) (addr : Nat) (h : s.env.started = true) :
    load bytes addr s = .refused .loadAfterFirstCycle :=
  if_pos h

theorem keySet_keypad (s : State) (k j : Fin 16) (b : Bool) :
    (keySet k b s).keypad[j] = if j = k then b else s.keypad[j] := by
  simp only [keySet, Fin.getElem_fin, Vector.getElem_set, Fin.val_inj, eq_comm]

theorem keySet_withEvents_unchanged (s : State) (k : Fin 16) (b : Bool) (es : List HostEvent) :
    Unchanged [.keypad, .env] s (keySet k b (s.withEvents es)) := by
  intro p hp
  cases p <;> simp_all [Part.same, keySet]

/-! ### The statements of 46_cycle_driver.md -/

/-- Settles O50: a Load asks for the record that a Cycle event sets. -/
theorem noLoadAfterTheFirstCycle : Obligations.NoLoadAfterTheFirstCycle := by
  refine ⟨fun s bytes addr es hev hstarted => ?_, fun s r t hdue h => ?_⟩
  · rw [step_of_events hev]
    exact load_of_started bytes addr hstarted
  · have hc : cycle r = .next t := step_of_cycleDue hdue ▸ h
    rw [cycle_env hc]

/-- Settles O60: only a Cycle event that the host may issue answers a next state, and Reset clears the
record. -/
theorem noCycleBeforeTheLoaderHasFinished : Obligations.NoCycleBeforeTheLoaderHasFinished := by
  refine ⟨fun s r hdue hgo hload => ?_, fun s r t hdue h => ?_, fun s t es hev h => ?_⟩
  · rw [step_of_cycleDue hdue]
    obtain ⟨es, rfl⟩ := hdue.exists_withEvents
    exact cycle_of_loaderUnfinished hgo hload
  · have hc : cycle r = .next t := step_of_cycleDue hdue ▸ h
    obtain ⟨_, hload⟩ := mayCycle_of_cycle_next hc
    obtain ⟨es, rfl⟩ := hdue.exists_withEvents
    exact hload
  · cases (step_of_events hev).symm.trans h
    exact ⟨rfl, rfl⟩

/-- Settles O34: the state in which the instruction runs is the fetched one. -/
theorem stepRunsTheDecodedInstruction : Obligations.StepRunsTheDecodedInstruction := by
  intro s r i hdue hmay hpc hi
  rw [step_of_mayCycle hdue hmay]
  obtain ⟨es, rfl⟩ := hdue.exists_withEvents
  exact ⟨_, runInstruction_of_decodeWord hpc hi, rfl, rfl, rfl, rfl, rfl, rfl, fun _ _ => rfl,
    hdue.fetched_unchanged _⟩

/-- Settles O35: the fetch raises before it changes anything. -/
theorem fetchAboveMemoryFaultsAndChangesNothing :
    Obligations.FetchAboveMemoryFaultsAndChangesNothing := by
  intro s r hdue hmay hpc
  rw [step_of_mayCycle hdue hmay]
  obtain ⟨es, rfl⟩ := hdue.exists_withEvents
  exact ⟨_, runInstruction_of_fetchAbove hpc, rfl, fun _ _ => rfl,
    hdue.setStatus_unchanged _⟩

/-- Settles O37: HALT stops at the fault, and a Cycle event that the host may issue does not read the
status. -/
theorem faultPolicyDecidesWhatFollows : Obligations.FaultPolicyDecidesWhatFollows := by
  refine ⟨fun s r f hdue hhalt hstatus => ?_, fun s r c hdue hmay hmay' => ?_⟩
  · rw [step_of_cycleDue hdue]
    obtain ⟨es, rfl⟩ := hdue.exists_withEvents
    exact cycle_of_halted hstatus hhalt
  · rw [step_of_mayCycle hdue hmay, step_of_mayCycle (hdue.setStatus c) hmay']
    exact runInstruction_setStatus r.markStarted c

/-- Settles O46: one key of the keypad is set. -/
theorem keySetWritesOneKey : Obligations.KeySetWritesOneKey := by
  intro s k b es hev
  rw [step_of_events hev]
  exact ⟨_, rfl, fun j => keySet_keypad (s.withEvents es) k j b, rfl, fun _ _ => rfl,
    keySet_withEvents_unchanged s k b es⟩

end Sys2Proof.Machine
end

section
/-! SUPPORT. The statements of 60_exceptions.md: the table of what makes an instruction fault, that an
instruction raises exactly the fault the table gives it, what the status is otherwise, a due Cycle event
at an illegal word, and the Tick event. -/

namespace Sys2Proof.Machine

/-! ### What makes an instruction fault -/

/-- The causes of R170 and R174 that an instruction can meet in the state `s` after its fetch, one
constructor for each kind of check. By `FaultCause.exec_eq` and `faultCause_of_exec` these are the faults
that `exec` raises, and no others. -/
inductive FaultCause (s : State) : Instr → Fault → Prop
  /-- A return with no address on the stack (R172). -/
  | stackEmpty (h : s.sp.val = 0) : FaultCause s .ret .stackUnderflow
  /-- A call with sixteen addresses on the stack (R173). -/
  | stackFull (nnn : Addr) (h : s.sp.val = 16) : FaultCause s (.call nnn) (.stackOverflow nnn)
  /-- The last of the three digits is stored outside memory (R123). -/
  | digitsOutside (x : RegIdx) (h : 4095 < s.index.toNat + 2) :
      FaultCause s (.ldB x) (.outOfBoundsAddress .write (max s.index.toNat 4096))
  /-- The last register is stored outside memory (R124). -/
  | storeOutside (x : RegIdx) (h : 4095 < s.index.toNat + x.toNat) :
      FaultCause s (.storeRegs x) (.outOfBoundsAddress .write (max s.index.toNat 4096))
  /-- The last register is loaded from outside memory (R125). -/
  | loadOutside (x : RegIdx) (h : 4095 < s.index.toNat + x.toNat) :
      FaultCause s (.loadRegs x) (.outOfBoundsAddress .read (max s.index.toNat 4096))
  /-- The last row of a sprite that has rows is outside memory (R143, R144). -/
  | spriteOutside (x y : RegIdx) (n : BitVec 4) (h0 : 0 < n.toNat)
      (h : 4095 < s.index.toNat + n.toNat - 1) :
      FaultCause s (.drw x y n) (.outOfBoundsAddress .read (max s.index.toNat 4096))
  /-- A key skip on a number that names no key (R135). -/
  | noSuchKey {i : Instr} (x : RegIdx) (hi : i = .skp x ∨ i = .sknp x) (h : 15 < (s.reg x).toNat) :
      FaultCause s i (.outOfBoundsAddress .keypad (s.reg x).toNat)

section
variable {i : Instr} {s t : State} {f : Fault}

/-- An instruction that meets a cause raises its fault and does nothing else (R176). -/
theorem FaultCause.exec_eq (h : FaultCause s i f) : exec i s = raise f s := by
  cases h with
  | stackEmpty h => exact exec_ret_of_zero h
  | stackFull nnn h => exact exec_call_of_full nnn h
  | digitsOutside x h => exact exec_ldB_outside h
  | storeOutside x h => exact exec_storeRegs_outside h
  | loadOutside x h => exact exec_loadRegs_outside h
  | spriteOutside x y n h0 h => exact exec_drw_outside (by omega) (by omega)
  | noSuchKey x hi h =>
    rcases hi with rfl | rfl
    · exact exec_skp_of_ge h
    · exact exec_sknp_of_ge h

/-- The causes written out as the table of R170 and R174. -/
theorem faultCause_iff : FaultCause s i f ↔
    (i = .ret ∧ s.sp.val = 0 ∧ f = .stackUnderflow) ∨
    (∃ nnn, i = .call nnn ∧ s.sp.val = 16 ∧ f = .stackOverflow nnn) ∨
    (∃ x, i = .ldB x ∧ 4095 < s.index.toNat + 2 ∧
      f = .outOfBoundsAddress .write (max s.index.toNat 4096)) ∨
    (∃ x, i = .storeRegs x ∧ 4095 < s.index.toNat + x.toNat ∧
      f = .outOfBoundsAddress .write (max s.index.toNat 4096)) ∨
    (∃ x, i = .loadRegs x ∧ 4095 < s.index.toNat + x.toNat ∧
      f = .outOfBoundsAddress .read (max s.index.toNat 4096)) ∨
    (∃ x y n, i = .drw x y n ∧ 0 < n.toNat ∧ 4095 < s.index.toNat + n.toNat - 1 ∧
      f = .outOfBoundsAddress .read (max s.index.toNat 4096)) ∨
    (∃ x, (i = .skp x ∨ i = .sknp x) ∧ 15 < (s.reg x).toNat ∧
      f = .outOfBoundsAddress .keypad (s.reg x).toNat) := by
  constructor
  · intro h
    cases h with
    | stackEmpty h => exact .inl ⟨rfl, h, rfl⟩
    | stackFull nnn h => exact .inr (.inl ⟨nnn, rfl, h, rfl⟩)
    | digitsOutside x h => exact .inr (.inr (.inl ⟨x, rfl, h, rfl⟩))
    | storeOutside x h => exact .inr (.inr (.inr (.inl ⟨x, rfl, h, rfl⟩)))
    | loadOutside x h => exact .inr (.inr (.inr (.inr (.inl ⟨x, rfl, h, rfl⟩))))
    | spriteOutside x y n h0 h =>
      exact .inr (.inr (.inr (.inr (.inr (.inl ⟨x, y, n, rfl, h0, h, rfl⟩)))))
    | noSuchKey x hi h => exact .inr (.inr (.inr (.inr (.inr (.inr ⟨x, hi, h, rfl⟩)))))
  · rintro (⟨rfl, h, rfl⟩ | ⟨nnn, rfl, h, rfl⟩ | ⟨x, rfl, h, rfl⟩ | ⟨x, rfl, h, rfl⟩ |
      ⟨x, rfl, h, rfl⟩ | ⟨x, y, n, rfl, h0, h, rfl⟩ | ⟨x, hi, h, rfl⟩)
    · exact .stackEmpty h
    · exact .stackFull nnn h
    · exact .digitsOutside x h
    · exact .storeOutside x h
    · exact .loadOutside x h
    · exact .spriteOutside x y n h0 h
    · exact .noSuchKey x hi h

/-! ### What the status is after an instruction -/

/-- An instruction meets a cause, or it waits for a key, or it leaves the status as it is. -/
theorem exec_status_cases (i : Instr) (s : State) :
    (∃ f, FaultCause s i f) ∨
    ((∃ x, i = .ldVxK x) ∧ ∀ k (h : k < 16), s.keypad[k] = false) ∨
    ∃ t, exec i s = .next t ∧ t.status = s.status := by
  cases i with
  | ret =>
    rcases exec_ret_cases s with ⟨h, _⟩ | ⟨_, _, _, _, he⟩
    · exact .inl ⟨_, .stackEmpty h⟩
    · exact .inr (.inr ⟨_, he, rfl⟩)
  | call nnn =>
    rcases exec_call_cases nnn s with ⟨h, _⟩ | ⟨_, _, _, _, he⟩
    · exact .inl ⟨_, .stackFull nnn h⟩
    · exact .inr (.inr ⟨_, he, rfl⟩)
  | ldB x =>
    rcases exec_ldB_cases x s with ⟨h, _⟩ | ⟨_, he⟩
    · exact .inl ⟨_, .digitsOutside x h⟩
    · exact .inr (.inr ⟨_, he, rfl⟩)
  | storeRegs x =>
    rcases exec_storeRegs_cases x s with ⟨h, _⟩ | ⟨_, he⟩
    · exact .inl ⟨_, .storeOutside x h⟩
    · exact .inr (.inr ⟨_, he, rfl⟩)
  | loadRegs x =>
    rcases exec_loadRegs_cases x s with ⟨h, _⟩ | ⟨_, he⟩
    · exact .inl ⟨_, .loadOutside x h⟩
    · exact .inr (.inr ⟨_, he, rfl⟩)
  | drw x y n =>
    rcases exec_drw_cases x y n s with ⟨⟨h0, h⟩, _⟩ | ⟨_, he⟩
    · exact .inl ⟨_, .spriteOutside x y n (by omega) (by omega)⟩
    · exact .inr (.inr ⟨_, he, rfl⟩)
  | skp x =>
    rcases exec_skp_cases x s with ⟨h, _⟩ | ⟨_, _, he⟩
    · exact .inl ⟨_, .noSuchKey x (.inl rfl) h⟩
    · exact .inr (.inr ⟨_, he, s.skipIf_unchanged _ .status (by decide)⟩)
  | sknp x =>
    rcases exec_sknp_cases x s with ⟨h, _⟩ | ⟨_, _, he⟩
    · exact .inl ⟨_, .noSuchKey x (.inr rfl) h⟩
    · exact .inr (.inr ⟨_, he, s.skipIf_unchanged _ .status (by decide)⟩)
  | ldVxK x =>
    rcases exec_ldVxK_cases x s with ⟨hnone, _⟩ | ⟨_, _, _, _, he⟩
    · exact .inr (.inl ⟨⟨x, rfl⟩, hnone⟩)
    · exact .inr (.inr ⟨_, he, rfl⟩)
  | seImm x kk | sneImm x kk | seReg x y | sneReg x y =>
    exact .inr (.inr ⟨_, rfl, s.skipIf_unchanged _ .status (by decide)⟩)
  | _ => exact .inr (.inr ⟨_, rfl, rfl⟩)

/-- A fault that an instruction ends with is the fault of a cause it meets. -/
theorem faultCause_of_exec (hs : s.notFaulted) (h : exec i s = .next t) (hf : t.status = .fault f) :
    FaultCause s i f := by
  rcases exec_status_cases i s with ⟨g, hg⟩ | ⟨⟨x, rfl⟩, hnone⟩ | ⟨u, hu, hstatus⟩
  · cases hg.exec_eq.symm.trans h
    cases hf
    exact hg
  · cases (exec_ldVxK_of_noKey x s hnone).symm.trans h
    cases hf
  · cases hu.symm.trans h
    exact absurd (hstatus.symm.trans hf) (hs f)

/-- An instruction that ends with `WAITING` is a key wait with no key pressed (R192). -/
theorem keyWait_of_exec_waiting (hs : s.status ≠ .waiting) (h : exec i s = .next t)
    (hw : t.status = .waiting) : (∃ x, i = .ldVxK x) ∧ ∀ k (h : k < 16), s.keypad[k] = false := by
  rcases exec_status_cases i s with ⟨g, hg⟩ | hwait | ⟨u, hu, hstatus⟩
  · cases hg.exec_eq.symm.trans h
    cases hw
  · exact hwait
  · cases hu.symm.trans h
    exact absurd (hstatus.symm.trans hw) hs

end

/-! ### A Cycle event at an illegal word -/

/-- At an illegal word, the fetch and the `pc` advance stand, and the decode raises (R171). -/
theorem runInstruction_of_illegal {s : State} {e : DecodeReject} (hpc : s.pc.toNat ≤ 0x0FFE)
    (he : decodeWord s.nextWord = .error e) :
    runInstruction s = raise (.decodeError s.nextWord) (s.fetched s.nextWord) := by
  rcases runInstruction_cases s with ⟨hout, _⟩ | ⟨_, ⟨_, _, hrun⟩ | ⟨i, hi, _⟩⟩
  · omega
  · exact hrun
  · cases he.symm.trans hi

/-- The state after a fetch is no fault's (R157). -/
theorem State.fetched_notFaulted (s : State) (w : Word) : (s.fetched w).notFaulted :=
  fun _ h => nomatch h

/-- Where the status may change, writing it once more adds nothing to what changes. -/
theorem Unchanged.setStatus {l : List Part} {s t : State} (h : Unchanged l s t) (hl : .status ∈ l)
    (c : Status) : Unchanged l s (t.setStatus c) := by
  intro p hp
  cases p with
  | status => exact absurd hl hp
  | _ => exact h _ hp

/-! ### The Tick event -/

/-- A Tick takes the sound timer down by one, floored at 0 (R185). -/
theorem tick_sound_toNat (s : State) : (tick s).sound.toNat = s.sound.toNat - 1 :=
  countDown_toNat s.sound

theorem tick_withEvents_unchanged (s : State) (es : List HostEvent) :
    Unchanged [.delay, .sound, .env] s (tick (s.withEvents es)) := by
  intro p hp
  cases p <;> simp_all [Part.same, tick]

/-! ### The statements of 60_exceptions.md -/

/-- Settles O36: an illegal word raises in its fetched state; a legal one runs its instruction, and
`DecodeError` is in no instruction's table of causes. -/
theorem illegalWordRaisesDecodeError : Obligations.IllegalWordRaisesDecodeError := by
  intro s r hdue hmay hpc
  rw [step_of_mayCycle hdue hmay]
  have hframe := (hdue.fetched_unchanged s.nextWord).setStatus (by decide)
    (.fault (.decodeError s.nextWord))
  obtain ⟨es, rfl⟩ := hdue.exists_withEvents
  refine ⟨fun ⟨e, he⟩ => ?_, fun ⟨i, hi⟩ t w h hf => ?_⟩
  · exact ⟨_, runInstruction_of_illegal hpc he, rfl, rfl, rfl, fun _ _ => rfl, hframe⟩
  · have hrun := runInstruction_of_decodeWord (s := (s.withEvents es).markStarted) hpc hi
    have hexec := hrun.symm.trans h
    cases faultCause_of_exec (State.fetched_notFaulted _ _) hexec hf

/-- Settles O39: the fault has a cause, and at a cause an instruction only raises. -/
theorem faultingInstructionChangesNothing : Obligations.FaultingInstructionChangesNothing := by
  intro i s t f hs h hf
  have hraise : raise f s = .next t := (faultCause_of_exec hs h hf).exec_eq.symm.trans h
  obtain ⟨u, hu, _, hregs, hparts⟩ := raise_raises f s
  cases hu.symm.trans hraise
  exact ⟨hregs, hparts⟩

/-- Settles O40: the table of causes is sound and complete for what `exec` raises. -/
theorem eachFaultHasItsCause : Obligations.EachFaultHasItsCause := by
  intro i s f hs
  rw [← faultCause_iff]
  exact ⟨fun ⟨_, h, hf⟩ => faultCause_of_exec hs h hf, fun h => ⟨_, h.exec_eq, rfl⟩⟩

/-- Settles O41: only a key wait with no key pressed puts `WAITING` into the status. -/
theorem onlyTheKeyWaitSuspends : Obligations.OnlyTheKeyWaitSuspends := by
  intro i s hs
  refine ⟨fun ⟨_, h, hw⟩ => keyWait_of_exec_waiting hs h hw, ?_⟩
  rintro ⟨⟨x, rfl⟩, hnone⟩
  exact ⟨_, exec_ldVxK_of_noKey x s hnone, rfl⟩

/-- Settles O45: a Tick counts both timers down, and takes itself off the schedule. -/
theorem tickCountsBothTimersDown : Obligations.TickCountsBothTimersDown := by
  intro s es hev
  rw [step_of_events hev]
  exact ⟨_, rfl, tick_delay_toNat (s.withEvents es), tick_sound_toNat (s.withEvents es), rfl,
    fun _ _ => rfl, tick_withEvents_unchanged s es⟩

end Sys2Proof.Machine
end

section
/-! SUPPORT. The statements of 70_reset_and_hazards.md: what the Reset event and the Load event leave
(R200, R204), and from these the boot order (R203, R205). With them the add-immediate of 41_alu.md
(R102). -/

namespace Sys2Proof.Machine

/-! ### The Reset event -/

section
variable (s : State)

theorem resetEvent_reg (r : RegIdx) : (resetEvent s).reg r = 0 :=
  Vector.getElem_replicate r.isLt

theorem resetEvent_stack {k : Nat} (hk : k < 16) : (resetEvent s).stack[k] = 0 :=
  Vector.getElem_replicate hk

theorem resetEvent_keypad {k : Nat} (hk : k < 16) : (resetEvent s).keypad[k] = false :=
  Vector.getElem_replicate hk

theorem resetEvent_pixel (px : Fin 64) (py : Fin 32) :
    Display.pixel (resetEvent s).display px py = false :=
  pixel_blankDisplay px py

theorem resetEvent_mem_read (a : Nat) : (resetEvent s).mem.read a = 0 :=
  Memory.read_nil a

end

theorem step_reset {s : State} {es : List HostEvent} (hev : s.env.events = .reset :: es) :
    step s = .next (resetEvent (s.withEvents es)) :=
  step_of_events hev

/-! ### The Load event -/

section
variable {s : State} {bytes : List Byte} {addr : Nat}

/-- Before the first Cycle event, a Load whose bytes fit completes (R204). -/
theorem load_of_fits (hs : s.env.started = false) (hfit : bytes = [] ∨ addr + bytes.length ≤ 4096) :
    load bytes addr s =
      .next ((s.setMem (s.mem.writeBytes addr bytes)).noteLoaded bytes addr) := by
  rcases load_cases bytes addr s with ⟨hstarted, _⟩ | ⟨_, _, he⟩ | ⟨_, hne, hout, _⟩
  · cases hs.symm.trans hstarted
  · exact he
  · exact absurd hfit (not_or.mpr ⟨hne, Nat.not_le.mpr hout⟩)

/-- Before the first Cycle event, a Load whose bytes do not fit raises (R204, D26). -/
theorem load_of_outside (hs : s.env.started = false) (hne : bytes ≠ [])
    (hout : 4096 < addr + bytes.length) :
    load bytes addr s = raise (.outOfBoundsAddress .load (max addr 4096)) s := by
  rcases load_cases bytes addr s with ⟨hstarted, _⟩ | ⟨_, hfit, _⟩ | ⟨_, _, _, he⟩
  · cases hs.symm.trans hstarted
  · exact absurd hfit (not_or.mpr ⟨hne, Nat.not_le.mpr hout⟩)
  · exact he

end

/-- A Load that raises changes the status and the host's side alone (R176, R204). -/
theorem State.withEvents_setStatus_unchanged (s : State) (es : List HostEvent) (c : Status) :
    Unchanged [.status, .env] s ((s.withEvents es).setStatus c) := by
  intro p hp
  cases p <;> simp_all [Part.same]

/-- A Load that completes changes memory and the host's side alone (R204). -/
theorem State.withEvents_loaded_unchanged (s : State) (es : List HostEvent) (m : Memory)
    (bytes : List Byte) (addr : Nat) :
    Unchanged [.memory, .env] s (((s.withEvents es).setMem m).noteLoaded bytes addr) := by
  intro p hp
  cases p <;> simp_all [Part.same]

/-! ### The boot order -/

/-- A run of three steps that each answer a next state. -/
theorem run_three {s s₁ s₂ s₃ : State} (h₁ : step s = .next s₁) (h₂ : step s₁ = .next s₂)
    (h₃ : step s₂ = .next s₃) :
    Host.Core.run ⟨State, Fault, Refusal, step, State.reset⟩ 3 s = .next s₃ := by
  simp only [run_succ, h₁, h₂, h₃]
  rfl

/-- With the status OK the run goes on, whatever the policy (R166). -/
theorem runGoesOn_of_status_ok {s : State} (h : s.status = .ok) : RunGoesOn s := by
  intro _ f hf
  cases h.symm.trans hf

/-! ### The statements of 70_reset_and_hazards.md -/

/-- Settles O48: the bytes are stored and the record noted, or the fault is raised, with the Load off
the schedule. -/
theorem loadCopiesVerbatimOrNotAtAll : Obligations.LoadCopiesVerbatimOrNotAtAll := by
  intro s bytes addr es hev hs
  rw [step_of_events hev]
  refine ⟨fun hfit => ?_, fun hne hout => ?_⟩
  · exact ⟨_, load_of_fits (s := s.withEvents es) hs hfit,
      fun i hi => s.mem.read_writeBytes_add addr hi,
      fun a ha => s.mem.read_writeBytes_of_outside ha, rfl,
      noteLoaded_fontLoaded _ bytes addr, noteLoaded_programLoaded _ bytes addr,
      fun _ _ => rfl, s.withEvents_loaded_unchanged es _ bytes addr⟩
  · exact ⟨_, load_of_outside (s := s.withEvents es) hs hne hout, rfl, rfl, fun _ _ => rfl,
      s.withEvents_setStatus_unchanged es _⟩

/-- Settles O49: from the reset state (R200), the two Loads (O48) store the font and, above it, the
program, and nothing else. -/
theorem bootPlacesFontAndProgram : Obligations.BootPlacesFontAndProgram := by
  intro s program hlen hev
  have hbase := s.env.config.fontBase.isLt
  have hfontLen : s.env.config.fontSet.toList.length = 80 := Vector.length_toList
  have hreset := step_reset hev
  obtain ⟨s₁, hfont, hfontBytes, hfontOther, hfontEnv, hfontNoted, _, _, hfontFrame⟩ :=
    (loadCopiesVerbatimOrNotAtAll (resetEvent (s.withEvents _)) s.env.config.fontSet.toList
      s.env.config.fontBase.val [.load program 0x200] rfl rfl).1 (.inr (by omega))
  have hev₁ : s₁.env.events = [.load program 0x200] := by rw [hfontEnv]
  have hstarted₁ : s₁.env.started = false := by rw [hfontEnv]; rfl
  have hconfig₁ : s₁.env.config = s.env.config := by rw [hfontEnv]; rfl
  have hpc₁ : s₁.pc = 0x200 := hfontFrame .pc (by decide)
  have hstatus₁ : s₁.status = .ok := hfontFrame .status (by decide)
  obtain ⟨t, hprog, hprogBytes, hprogOther, hprogEnv, hfontKept, hprogNoted, _, hprogFrame⟩ :=
    (loadCopiesVerbatimOrNotAtAll s₁ program 0x200 [] hev₁ hstarted₁).1 (.inr (by omega))
  have hevents : t.env.events = [] := by rw [hprogEnv]
  have hconfig : t.env.config = s₁.env.config := by rw [hprogEnv]
  have hpc : t.pc = s₁.pc := hprogFrame .pc (by decide)
  have hstatus : t.status = .ok := (hprogFrame .status (by decide)).trans hstatus₁
  have hmay : MayCycle t := ⟨runGoesOn_of_status_ok hstatus,
    hfontKept.mpr (.inl (hfontNoted.mpr (.inr ⟨rfl, rfl⟩))), hprogNoted.mpr (.inr rfl)⟩
  refine ⟨t, run_three hreset hfont hprog, fun i hi => ?_, hprogBytes, fun a ha => ?_,
    hpc.trans hpc₁, hstatus, hevents, hconfig.trans hconfig₁, hmay⟩
  · calc t.mem.read (s.env.config.fontBase.val + i)
        = s₁.mem.read (s.env.config.fontBase.val + i) := hprogOther _ (by omega)
      _ = s.env.config.fontSet.toList[i] := hfontBytes i (by omega)
      _ = s.env.config.fontSet[i] := Vector.getElem_toList _
  · calc t.mem.read a
        = s₁.mem.read a := hprogOther a (by omega)
      _ = (resetEvent (s.withEvents _)).mem.read a := hfontOther a (by omega)
      _ = 0 := resetEvent_mem_read _ a

/-- Settles O47: the step is the Reset event, which leaves each element at its reset value. -/
theorem resetEventZeroesAllButPc : Obligations.ResetEventZeroesAllButPc :=
  fun _ _ hev => ⟨_, step_reset hev, resetEvent_reg _, rfl, rfl, rfl,
    fun _ hk => resetEvent_stack _ hk, rfl, rfl, fun _ hk => resetEvent_keypad _ hk,
    resetEvent_pixel _, resetEvent_mem_read _, rfl⟩

/-! ### The add-immediate of 41_alu.md -/

/-- Settles O15: one register write, of the 8-bit sum. -/
theorem addImmediateWrapsWithoutFlag : Obligations.AddImmediateWrapsWithoutFlag := by
  refine ⟨encodes_row (.addImm 0 0), fun x kk s =>
    ⟨_, rfl, ?_, s.setReg_regsUnchanged x _, s.setReg_unchanged x _⟩⟩
  rw [State.reg_setReg_self, BitVec.toNat_add]

end Sys2Proof.Machine
end
